-- ==== Sys2Proof/Word.lean ====
section
/-! DEFINITION. The widths of the block's values (00_scope.md R6, R9; 30_encoding.md R81, R86). -/

namespace Sys2Proof

/-- An 8-bit register value or one byte on the wire (R6, R9). -/
abbrev Byte := BitVec 8

/-- The 16-bit operand of `transferWord` (R82). -/
abbrev Half := BitVec 16

/-- The 32-bit operand field of a command word and the value field of a response (R81, R86). -/
abbrev Operand := BitVec 32

/-- A 40-bit command word (R81). -/
abbrev CommandWord := BitVec 40

end Sys2Proof
end

