-- ==== Sys2Proof/Machine/Events.lean ====
section
/-! DEFINITION. What can be seen of the block from outside: the registers' ids, the GPIO requests, the response's
status, and the events of the history (10_state.md R38, 20_memory.md R50, R62, R65, 30_encoding.md R86). -/

namespace Sys2Proof.Machine

/-- The three registers (R23, R50). -/
inductive RegId where
  | ctrl
  | status
  | data
  deriving DecidableEq, Repr

/-- The four logical lines the block requests directions for (R65). -/
inductive Line where
  | select
  | dataOut
  | dataIn
  | clock
  deriving DecidableEq, Repr

/-- The direction requested for a line (R65). -/
inductive Dir where
  | output
  | input
  deriving DecidableEq, Repr

/-- The status of a response (R86, R171). Code 3 is reserved and never delivered, so it has no constructor. -/
inductive Status where
  | ok
  | alreadyStarted
  | notStarted
  deriving DecidableEq, Repr

/-- One event of the history (R38, R62). -/
inductive Event where
  /-- A command word issued by the host (R80). -/
  | cmd (word : CommandWord)
  /-- A response delivered to the host (R86). -/
  | resp (status : Status) (value : Operand)
  /-- A register read, with the value returned (R62). -/
  | regRead (r : RegId) (v : Byte)
  /-- A register write, with the value written before any masking (R62). -/
  | regWrite (r : RegId) (v : Byte)
  /-- One byte exchanged with the peer (R57). -/
  | wire (tx rx : Byte) (live : Bool)
  /-- A pin-direction request (R65). -/
  | gpio (line : Line) (dir : Dir)
  deriving DecidableEq, Repr

end Sys2Proof.Machine
end

