-- ==== Sys2Proof/Config.lean ====
section
/-! DEFINITION. The named parameters of the block (00_scope.md R7) and the free values of its outside world
(20_memory.md R58). -/

namespace Sys2Proof.Config

/-- The parameters of R7 that some rule reads. A platform fixes them before the block runs (R192) and no command
changes them (R43). They are carried in `State` (log 4), so a statement about every state holds for every instantiation;
which values are legal is `Params.legal` in WellFormed.lean. -/
structure Params where
  /-- `ENABLE_BIT`: the bit of Control holding ENABLE (R28). -/
  enableBit : Fin 8
  /-- `MASTER_BIT`: the bit of Control holding MASTER (R29). -/
  masterBit : Fin 8
  /-- `COMPLETE_BIT`: the bit of Status holding COMPLETE (R32). -/
  completeBit : Fin 8
  /-- `HISPEED_BIT`: the bit of Status holding HISPEED (R33). -/
  hispeedBit : Fin 8
  /-- `DWORD_ORDER`: the byte index sent at each of the four wire positions of `transferDWord` (R140). -/
  dwordOrder : Vector (Fin 4) 4
  /-- `CTRL_RESET`: Control after reset (R42). -/
  ctrlReset : Byte
  /-- `STATUS_RESET`: Status after reset (R42). -/
  statusReset : Byte
  deriving DecidableEq, Repr

/-- R7's defaults: ENABLE 6, MASTER 4, COMPLETE 7, HISPEED 0, `DWORD_ORDER` (0,1,2,3), both reset values 0x00. -/
def defaults : Params where
  enableBit := 6
  masterBit := 4
  completeBit := 7
  hispeedBit := 0
  dwordOrder := #v[0, 1, 2, 3]
  ctrlReset := 0x00
  statusReset := 0x00

/-- The two orders `WIRE_BIT_ORDER` can name (R7). -/
inductive BitOrder where
  | msbFirst
  | lsbFirst
  deriving DecidableEq, Repr, Inhabited

/-- `WIRE_BIT_ORDER`, OPEN in R7: no rule reads it, so it has no value here (log 9). -/
opaque wireBitOrder : BitOrder

/-- `CLOCK_MAP`, OPEN in R7: the serial clock frequency a clock-rate code and the high-speed flag select. No rule reads
it, so it has no value here (log 9). -/
opaque clockMap : BitVec 2 → Bool → Nat

/-- `REG_ADDR`, OPEN in R7 and R50: the platform address of each register. No rule reads it, so it has no value here;
R7's legality (three distinct addresses) is `regAddrLegal` (log 9). -/
opaque regAddr : Machine.RegId → Nat

/-- R7's condition on `REG_ADDR`: three distinct addresses. -/
def regAddrLegal : Prop := Function.Injective regAddr

/-- The free peer of R58: the received byte of a transfer may depend on the history, on the byte sent and on a free
choice, and nothing else is assumed of it. It has no body: no proof can see a value of it (log 2). -/
opaque peer : List Machine.Event → Byte → Nat → Byte

/-- Whether a transfer, live or not, completes at the shift engine's opportunity of this number, where the spec leaves it
free (R57, R59, R124). It has no body: no proof can see whether a transfer completes or how many polls it takes (log 3). -/
opaque completes : (live : Bool) → (opportunity : Nat) → Bool

end Sys2Proof.Config
end

