-- ==== Sys2Proof/Syntax.lean ====
section
/-! DEFINITION. The seven commands of the block (00_scope.md R2, 30_encoding.md R82, R83), one constructor per row
of spec/opcode_table.json. `end` is a word of Lean's own, so the two lifecycle commands are `beginBus` and `endBus`. -/

namespace Sys2Proof

/-- A command with its argument, at the argument's width (R82). -/
inductive Instr where
  /-- `begin`, opcode 0x01 (R100). -/
  | beginBus
  /-- `end`, opcode 0x02 (R105). -/
  | endBus
  /-- `transferByte b`, opcode 0x03 (R121). -/
  | transferByte (b : Byte)
  /-- `transferWord w`, opcode 0x04 (R130). -/
  | transferWord (w : Half)
  /-- `transferDWord d`, opcode 0x05 (R140). -/
  | transferDWord (d : Operand)
  /-- `setClockDivider d`, opcode 0x06 (R150). -/
  | setClockDivider (d : Byte)
  /-- `setDataMode m`, opcode 0x07 (R155). -/
  | setDataMode (m : Byte)
  deriving DecidableEq, Repr

end Sys2Proof
end

