-- ==== Sys2Proof/Machine/State.lean ====
section
/-! DEFINITION. All the state the spec gives the block (10_state.md), as plain data, the reasons a run can stop
(60_exceptions.md R174 to R176), and the state after reset (R42, R190). -/

namespace Sys2Proof.Machine

/-- The shift engine's state (R36). -/
inductive Shift where
  | idle
  /-- A transfer of the byte `tx` is in progress; `live` records whether ENABLE and MASTER were both 1 when it started. -/
  | busy (tx : Byte) (live : Bool)
  deriving DecidableEq, Repr

/-- A command's local variables (R37): `c` and `s`, the values read from CTRL and STATUS; `k`, the position on the wire
of a multi-byte transfer; `acc`, the accumulated receive value. -/
structure Locals where
  c : Byte
  s : Byte
  k : Fin 4
  acc : Operand
  deriving DecidableEq, Repr

/-- The locals of a command just issued: `acc` and `k` as the pseudocode starts them (R130, R140), `c` and `s` not yet
read (log 8). -/
def Locals.start : Locals := { c := 0, s := 0, k := 0, acc := 0 }

/-- The controller's execution state (R37): the command with its operand, the position reached in its pseudocode, its
locals. -/
inductive Exec where
  | idle
  | busy (cmd : Instr) (mpc : Nat) (loc : Locals)
  deriving DecidableEq, Repr

/-- The peer (R58), an oracle for the received byte of each transfer. -/
inductive Peer where
  /-- Any peer: `Config.peer`, of which nothing is assumed. -/
  | free
  /-- The loop-back peer: the received byte is the byte sent. -/
  | loopBack
  /-- The scripted peer: the n-th byte of the list on the n-th transfer; past the list, free (log 2). -/
  | scripted (bytes : List Byte)
  deriving DecidableEq, Repr

/-- What becomes of a transfer in progress at an opportunity of the shift engine (R57, R59; log 3). -/
inductive Completion where
  /-- Open: `Config.completes` decides, of which nothing is assumed. -/
  | free
  /-- The transfer completes. -/
  | completes
  /-- The transfer does not complete, now or later. -/
  | never
  deriving DecidableEq, Repr

/-- When the shift engine completes (R57, R59), as plain data (log 3). An opportunity stands before every controller
micro-step at which a transfer is in progress: it takes the head of `script`; where `script` is empty, `live` says what
becomes of a live transfer and `dead` what becomes of one that is not live. `opportunity` counts the free opportunities. -/
structure Schedule where
  script : List Bool
  live : Completion
  dead : Completion
  opportunity : Nat
  deriving DecidableEq, Repr

/-- What the host does next (R80, R187), as plain data (log 1). -/
inductive HostMove where
  /-- Issue this word once `exec` is Idle: the host R194 asks for. -/
  | issue (word : CommandWord)
  /-- Issue this word at the next step, whatever the controller is doing (R176). -/
  | issueAtOnce (word : CommandWord)
  /-- Reset the block once `exec` is Idle (R190). -/
  | reset
  deriving DecidableEq, Repr

/-- The faults of the register space (R175). Each records the micro-step it arose in: the command and its `mpc`. -/
inductive Fault where
  /-- A read or write of DATA while `shift` is Busy (R53, R55). Raised by `readData` and `writeData`. Safe: the spec's own
  fault, and no sequence of commands reaches it (R195). -/
  | dataAccessWhileBusy (cmd : Instr) (mpc : Nat)
  /-- A read of DATA before any transfer has completed (R53). Raised by `readData`. Safe: the spec's own fault, and no
  sequence of commands reaches it (R195). -/
  | unwrittenRead (cmd : Instr) (mpc : Nat)
  deriving DecidableEq, Repr

/-- The refusals (R174, R176), and the host interface's rejection of an instruction that has no meaning. -/
inductive Refusal where
  /-- No meaning yet for the instruction. No arm of `exec` answers it. Safe. -/
  | notModelled (mnemonic : String)
  /-- `refuse IllegalCommand` (R174): the word spells no command. Raised by `present`. Safe: the spec's own refusal. -/
  | illegalCommand
  /-- `refuse CommandWhileBusy` (R176): a command issued while `exec` is Busy. Raised by `present` and `issue`. Safe: the
  spec's own refusal. -/
  | commandWhileBusy
  deriving DecidableEq, Repr

/-- The mark of a run that has ended (R174, R175): the refusal mark or the fault record. -/
inductive Stop where
  | refused (r : Refusal)
  | faulted (f : Fault)
  deriving DecidableEq, Repr

/-- The state of the block, then its configuration (R43), then the model's own fields. -/
structure State where
  /-- The lifecycle flag (R21): true is Running, false is Stopped. -/
  running : Bool
  /-- CTRL (R24). -/
  ctrl : Byte
  /-- STATUS (R31). -/
  status : Byte
  /-- The receive value of DATA (R35); none means no transfer has completed since reset. -/
  rx : Option Byte
  /-- The shift engine (R36). -/
  shift : Shift
  /-- The controller (R37). -/
  exec : Exec
  /-- The event history, oldest first (R38). -/
  history : List Event
  /-- The refusal mark (R174) or the fault record (R175); no step clears it. -/
  mark : Option Stop
  /-- The parameters (R7, R43; log 4). -/
  params : Config.Params
  /-- The peer oracle (R43, R58; log 2). -/
  peer : Peer
  /-- Model's own: when transfers complete (R57, R59; log 3). -/
  engine : Schedule
  /-- Model's own: the counter behind the free choice of the peer oracle (R58; log 2). -/
  choice : Nat
  /-- Model's own: the host's coming moves (R43, R80; log 1). -/
  host : List HostMove
  /-- Model's own: how many micro-steps of the controller one step shows at most (log 7). -/
  pace : Nat
  deriving DecidableEq, Repr

/-- The machine right after reset with the default parameters (R7, R42, R190). The last five fields stand for the outside
world and are log entries' choices (log 1, 2, 3, 7); no statement rests on them. -/
def State.reset : State where
  running := false
  ctrl := Config.defaults.ctrlReset
  status := Config.defaults.statusReset
  rx := none
  shift := .idle
  exec := .idle
  history := []
  mark := none
  params := Config.defaults
  peer := .free
  engine := { script := [], live := .free, dead := .free, opportunity := 0 }
  choice := 0
  host := []
  pace := 64

end Sys2Proof.Machine
end

