-- ==== Sys2Proof/Machine/Flags.lean ====
section
/-! DEFINITION. The bit constants of 00_scope.md R11 and the fields and flags of CTRL and STATUS (10_state.md R24 to
R34, R40). -/

namespace Sys2Proof

/-- The byte with bit `i` alone set: `1 << i` (R11). -/
def bitMask (i : Fin 8) : Byte := 1#8 <<< i.val

/-- `EN = 1 << ENABLE_BIT` (R11). -/
def Config.Params.EN (p : Config.Params) : Byte := bitMask p.enableBit

/-- `MS = 1 << MASTER_BIT` (R11). -/
def Config.Params.MS (p : Config.Params) : Byte := bitMask p.masterBit

/-- `CF = 1 << COMPLETE_BIT` (R11). -/
def Config.Params.CF (p : Config.Params) : Byte := bitMask p.completeBit

/-- `HS = 1 << HISPEED_BIT` (R11). -/
def Config.Params.HS (p : Config.Params) : Byte := bitMask p.hispeedBit

/-- `CLK_MASK = 0x03` (R11). -/
def CLK_MASK : Byte := 0x03

/-- `MODE_MASK = 0x0C` (R11). -/
def MODE_MASK : Byte := 0x0C

namespace Machine

/-- ENABLE, Control bit `ENABLE_BIT` (R28), read as R55 reads it. -/
def State.enable (s : State) : Bool := decide (s.ctrl &&& s.params.EN ≠ 0)

/-- MASTER, Control bit `MASTER_BIT` (R29), read as R55 reads it. -/
def State.master (s : State) : Bool := decide (s.ctrl &&& s.params.MS ≠ 0)

/-- COMPLETE, Status bit `COMPLETE_BIT` (R32), read as the poll of R128 reads it. -/
def State.complete (s : State) : Bool := decide (s.status &&& s.params.CF ≠ 0)

/-- HISPEED, Status bit `HISPEED_BIT` (R33). -/
def State.hispeed (s : State) : Bool := decide (s.status &&& s.params.HS ≠ 0)

/-- CLK_RATE, Control bits [1:0] (R25). -/
def State.clkRate (s : State) : BitVec 2 := s.ctrl.extractLsb' 0 2

/-- MODE, Control bits [3:2] (R26). -/
def State.mode (s : State) : BitVec 2 := s.ctrl.extractLsb' 2 2

/-- CPHA, Control bit 2 (R27). -/
def State.cpha (s : State) : Bool := s.ctrl.getLsbD 2

/-- CPOL, Control bit 3 (R27). -/
def State.cpol (s : State) : Bool := s.ctrl.getLsbD 3

/-- The bits of Control that no field of R24 names (R30): neither [3:0] nor ENABLE nor MASTER. -/
def State.ctrlUnrelated (s : State) : Byte := s.ctrl &&& ~~~(CLK_MASK ||| MODE_MASK ||| s.params.EN ||| s.params.MS)

/-- The bits of Status that are neither COMPLETE nor HISPEED (R34). -/
def State.statusUnrelated (s : State) : Byte := s.status &&& ~~~(s.params.CF ||| s.params.HS)

/-- The serial clock frequency the registers select, through the open parameter `CLOCK_MAP` (R25, R33). No rule reads it. -/
def State.serialClock (s : State) : Nat := Config.clockMap s.clkRate s.hispeed

/-- Whether a transfer started now is live: ENABLE and MASTER both 1 (R55). -/
def State.liveNow (s : State) : Bool := s.enable && s.master

/-- `STATUS & ~CF`: STATUS with COMPLETE cleared (R55). -/
def State.statusCleared (s : State) : Byte := s.status &&& ~~~s.params.CF

/-- `STATUS | CF`: STATUS with COMPLETE set (R57). -/
def State.statusCompleted (s : State) : Byte := s.status ||| s.params.CF

/-- What a write of `v` leaves in STATUS: `(v & ~CF) | (STATUS & CF)` (R54). -/
def State.statusWritten (s : State) (v : Byte) : Byte := (v &&& ~~~s.params.CF) ||| (s.status &&& s.params.CF)

/-- The value `begin` writes to CTRL: `c | EN | MS` (R100). -/
def ctrlBegun (p : Config.Params) (c : Byte) : Byte := c ||| p.EN ||| p.MS

/-- The value `end` writes to CTRL: `c & ~(EN | MS)` (R105). -/
def ctrlEnded (p : Config.Params) (c : Byte) : Byte := c &&& ~~~(p.EN ||| p.MS)

/-- The value `begin` writes to STATUS: `s | HS` (R100). -/
def statusBegun (p : Config.Params) (s : Byte) : Byte := s ||| p.HS

/-- The value `end` writes to STATUS: `s & ~HS` (R105). -/
def statusEnded (p : Config.Params) (s : Byte) : Byte := s &&& ~~~p.HS

/-- The value `setClockDivider` writes to CTRL: `(c & ~CLK_MASK) | (d & 0x03)` (R150). -/
def ctrlWithClock (c d : Byte) : Byte := (c &&& ~~~CLK_MASK) ||| (d &&& 0x03)

/-- The value `setDataMode` writes to CTRL: `(c & ~MODE_MASK) | ((m & 0x03) << 2)` (R155). -/
def ctrlWithMode (c m : Byte) : Byte := (c &&& ~~~MODE_MASK) ||| ((m &&& 0x03) <<< 2)

end Machine

/-- The status code of a response (R86). -/
def Machine.Status.code : Machine.Status → BitVec 2
  | .ok => 0
  | .alreadyStarted => 1
  | .notStarted => 2

/-- The 34-bit response `{status[1:0], value[31:0]}` (R86). -/
def Machine.responseWord (st : Machine.Status) (value : Operand) : BitVec 34 := st.code ++ value

end Sys2Proof
end

