-- ==== Sys2Proof/WellFormed.lean ====
section
/-! DEFINITION. Which parameters are legal (00_scope.md R7, R8) and which text commands are well formed
(30_encoding.md R82, R87). -/

namespace Sys2Proof

/-- R7, R8: ENABLE and MASTER lie in Control [7:4] at distinct positions; COMPLETE and HISPEED at distinct positions of
Status; `DWORD_ORDER` is a permutation of {0,1,2,3}; the reset values have the four gate bits 0. -/
def Config.Params.legal (p : Config.Params) : Bool :=
  decide (4 ≤ p.enableBit.val) && decide (4 ≤ p.masterBit.val) && decide (p.enableBit ≠ p.masterBit)
    && decide (p.completeBit ≠ p.hispeedBit)
    && decide (p.dwordOrder.toList.Nodup)
    && !p.ctrlReset.getLsbD p.enableBit.val && !p.ctrlReset.getLsbD p.masterBit.val
    && !p.statusReset.getLsbD p.completeBit.val && !p.statusReset.getLsbD p.hispeedBit.val

/-- The width of a command's argument in bits, 0 for a command that takes none (R82). -/
def Instr.argumentWidth : Instr → Nat
  | .beginBus => 0
  | .endBus => 0
  | .transferByte _ => 8
  | .transferWord _ => 16
  | .transferDWord _ => 32
  | .setClockDivider _ => 8
  | .setDataMode _ => 8

/-- The seven command names (R2, R87). -/
inductive CommandName where
  | beginBus
  | endBus
  | transferByte
  | transferWord
  | transferDWord
  | setClockDivider
  | setDataMode
  deriving DecidableEq, Repr

/-- The width of the argument a name takes; none for a name that takes no argument (R82). -/
def CommandName.argumentWidth? : CommandName → Option Nat
  | .beginBus => none
  | .endBus => none
  | .transferByte => some 8
  | .transferWord => some 16
  | .transferDWord => some 32
  | .setClockDivider => some 8
  | .setDataMode => some 8

/-- A text command after reading: its name and its literal, if one was written (R87). -/
structure TextCommand where
  name : CommandName
  argument : Option Nat
  deriving DecidableEq, Repr

/-- R87: a literal stands exactly where the command takes an argument, and fits the argument's width ("a literal wider
than the argument's width is an assembly error, not a truncation"). -/
def TextCommand.wellFormed (t : TextCommand) : Bool :=
  match t.name.argumentWidth?, t.argument with
  | none, none => true
  | some w, some n => decide (n < 2 ^ w)
  | none, some _ => false
  | some _, none => false

end Sys2Proof
end

