-- ==== Sys2Proof/Decode.lean ====
section
/-! DEFINITION. The 40-bit command word (30_encoding.md R80 to R89): decoding, total and rejecting by name, and the
encoder, both written from R81 to R83. -/

namespace Sys2Proof

/-- Why a word spells no command. Both are the one verdict IllegalCommand of R89. -/
inductive Illegal where
  /-- Opcode 0x00 or 0x08 to 0xFF (R84). -/
  | reservedOpcode
  /-- A defined opcode with a nonzero unused operand bit (R85). -/
  | unusedOperandBits
  deriving DecidableEq, Repr

/-- The result of decoding a word (R89). -/
inductive Decoded where
  | command (i : Instr)
  | illegalCommand (why : Illegal)
  deriving DecidableEq, Repr

/-- The field `op` of a command word, bits [39:32] (R81). -/
def opField (x : CommandWord) : BitVec 8 := x.extractLsb' 32 8

/-- The field `operand` of a command word, bits [31:0] (R81). -/
def operandField (x : CommandWord) : Operand := x.extractLsb' 0 32

/-- R89 with the match and mask columns of R83: the command of the unique matching row with the argument of R82, or the
verdict IllegalCommand. A word that no row matches has a reserved opcode (R84) or, its opcode being one of 0x01 to 0x07,
a nonzero unused operand bit (R85). -/
def decode (x : CommandWord) : Decoded :=
  if x &&& 0xFFFFFFFFFF#40 = 0x0100000000#40 then .command .beginBus
  else if x &&& 0xFFFFFFFFFF#40 = 0x0200000000#40 then .command .endBus
  else if x &&& 0xFFFFFFFF00#40 = 0x0300000000#40 then .command (.transferByte (x.extractLsb' 0 8))
  else if x &&& 0xFFFFFF0000#40 = 0x0400000000#40 then .command (.transferWord (x.extractLsb' 0 16))
  else if x &&& 0xFF00000000#40 = 0x0500000000#40 then .command (.transferDWord (x.extractLsb' 0 32))
  else if x &&& 0xFFFFFFFF00#40 = 0x0600000000#40 then .command (.setClockDivider (x.extractLsb' 0 8))
  else if x &&& 0xFFFFFFFF00#40 = 0x0700000000#40 then .command (.setDataMode (x.extractLsb' 0 8))
  else if 0x01#8 ≤ opField x ∧ opField x ≤ 0x07#8 then .illegalCommand .unusedOperandBits
  else .illegalCommand .reservedOpcode

/-- The opcode of a command (R83). -/
def Instr.opcode : Instr → BitVec 8
  | .beginBus => 0x01
  | .endBus => 0x02
  | .transferByte _ => 0x03
  | .transferWord _ => 0x04
  | .transferDWord _ => 0x05
  | .setClockDivider _ => 0x06
  | .setDataMode _ => 0x07

/-- The opcode of a command name (R83). -/
def CommandName.opcode : CommandName → BitVec 8
  | .beginBus => 0x01
  | .endBus => 0x02
  | .transferByte => 0x03
  | .transferWord => 0x04
  | .transferDWord => 0x05
  | .setClockDivider => 0x06
  | .setDataMode => 0x07

/-- The 32-bit operand of a command: its argument zero-extended, unused bits 0 (R81, R82). -/
def Instr.operand : Instr → Operand
  | .beginBus => 0
  | .endBus => 0
  | .transferByte b => b.setWidth 32
  | .transferWord w => w.setWidth 32
  | .transferDWord d => d
  | .setClockDivider d => d.setWidth 32
  | .setDataMode m => m.setWidth 32

/-- R88: `word = (op << 32) | zext_40(argument)`. -/
def encode (i : Instr) : CommandWord :=
  (i.opcode.setWidth 40 <<< 32) ||| i.operand.setWidth 40

/-- The row's `match` word (R83). -/
def Instr.rowMatch (i : Instr) : CommandWord := i.opcode.setWidth 40 <<< 32

/-- The row's `mask` word (R83): every bit but the argument's. -/
def Instr.rowMask : Instr → CommandWord
  | .beginBus => 0xFFFFFFFFFF
  | .endBus => 0xFFFFFFFFFF
  | .transferByte _ => 0xFFFFFFFF00
  | .transferWord _ => 0xFFFFFF0000
  | .transferDWord _ => 0xFF00000000
  | .setClockDivider _ => 0xFFFFFFFF00
  | .setDataMode _ => 0xFFFFFFFF00

/-- The instruction the decoder reads from a table word: the table's rows are whole 40-bit command words with bit 0 the
least significant bit of the one word, so `w` is the command word itself. Bits above `nbits` are 0. -/
def decodeTableWord (nbits w : Nat) : Option Instr :=
  if nbits ≤ 40 ∧ w < 2 ^ nbits then
    match decode (BitVec.ofNat 40 w) with
    | .command i => some i
    | .illegalCommand _ => none
  else none

/-- The words of R83's match column decode to their rows' commands, with operand 0. -/
theorem decode_match_column :
    decode 0x0100000000#40 = .command .beginBus ∧ decode 0x0200000000#40 = .command .endBus
      ∧ decode 0x0300000000#40 = .command (.transferByte 0) ∧ decode 0x0400000000#40 = .command (.transferWord 0)
      ∧ decode 0x0500000000#40 = .command (.transferDWord 0) ∧ decode 0x0600000000#40 = .command (.setClockDivider 0)
      ∧ decode 0x0700000000#40 = .command (.setDataMode 0) := by decide

end Sys2Proof
end

