-- ==== Sys2Proof/Machine/Operands.lean ====
section
/-! DEFINITION. The composition of multi-byte values from bytes (41_transfer.md R130, R140, R145). -/

namespace Sys2Proof.Machine

/-- Byte `i` of a value: `(v >> (8*i)) & 0xFF` (R145). -/
def byteAt (v : Operand) (i : Fin 4) : Byte := (v >>> (8 * i.val)).setWidth 8

/-- The byte `r` placed at index `i`: `zext(r) << (8*i)` (R145). -/
def placeByte (r : Byte) (i : Fin 4) : Operand := r.setWidth 32 <<< (8 * i.val)

/-- The index of the last wire position of a command's transfer: one byte, two bytes, four bytes (R121, R130, R140). The
commands that transfer nothing never ask. -/
def lastPosition : Instr → Fin 4
  | .beginBus => 0
  | .endBus => 0
  | .transferByte _ => 0
  | .transferWord _ => 1
  | .transferDWord _ => 3
  | .setClockDivider _ => 0
  | .setDataMode _ => 0

/-- The byte index, by significance, exchanged at wire position `k`: 0 for `transferByte`; `1 - k` for `transferWord`
(R130); `p_k` of `DWORD_ORDER` for `transferDWord` (R140). -/
def byteIndex (p : Config.Params) (cmd : Instr) (k : Fin 4) : Fin 4 :=
  match cmd with
  | .beginBus => 0
  | .endBus => 0
  | .transferByte _ => 0
  | .transferWord _ => 1 - k
  | .transferDWord _ => p.dwordOrder[k]
  | .setClockDivider _ => 0
  | .setDataMode _ => 0

/-- The byte a command sends at wire position `k` (R121, R130, R140). -/
def byteToSend (p : Config.Params) (cmd : Instr) (k : Fin 4) : Byte :=
  byteAt cmd.operand (byteIndex p cmd k)

/-- The accumulator after the byte `r` came in at wire position `k`: `acc | (zext(r) << (8*i))` (R130, R140). -/
def accumulate (p : Config.Params) (cmd : Instr) (k : Fin 4) (acc : Operand) (r : Byte) : Operand :=
  acc ||| placeByte r (byteIndex p cmd k)

end Sys2Proof.Machine
end

