-- ==== Sys2Proof/Machine/Ops.lean ====
section
/-! DEFINITION. The named operations of the block: register accesses (20_memory.md R50 to R62), GPIO requests (R65), the
shift engine's completion step (R57, R58), the issue of a command (30_encoding.md R80) and the delivery of its response
(R86). The block raises no exception (60_exceptions.md R170), so no operation takes one: a failure is a response. -/

namespace Sys2Proof.Machine

/-- The faults of a register access, without the micro-step (R175). -/
inductive AccessFault where
  | dataAccessWhileBusy
  | unwrittenRead
  deriving DecidableEq, Repr

/-- The fault of R175 with the micro-step it arose in. -/
def AccessFault.inStep (f : AccessFault) (cmd : Instr) (mpc : Nat) : Fault :=
  match f with
  | .dataAccessWhileBusy => .dataAccessWhileBusy cmd mpc
  | .unwrittenRead => .unwrittenRead cmd mpc

/-- Append an event to the history (R38). -/
def State.record (s : State) (e : Event) : State := { s with history := s.history ++ [e] }

/-- The value a read of DATA returns, or its fault (R53). -/
def readData (s : State) : Except AccessFault Byte :=
  match s.shift, s.rx with
  | .busy _ _, _ => .error .dataAccessWhileBusy
  | .idle, none => .error .unwrittenRead
  | .idle, some r => .ok r

/-- The value a read of a register returns, or its fault (R52, R53, R54). -/
def readValue (r : RegId) (s : State) : Except AccessFault Byte :=
  match r with
  | .ctrl => .ok s.ctrl
  | .status => .ok s.status
  | .data => readData s

/-- `MemRead(r, 1)` (R52 to R54): no side effect but the event `RegRead(r, v)` (R62). -/
def memRead (r : RegId) (s : State) : Except AccessFault (Byte × State) :=
  match readValue r s with
  | .ok v => .ok (v, s.record (.regRead r v))
  | .error f => .error f

/-- The effect of `MemWrite(DATA, 1, b)` (R55): COMPLETE is cleared and a transfer of `b` starts; `rx` is unchanged. -/
def writeData (b : Byte) (s : State) : Except AccessFault State :=
  match s.shift with
  | .busy _ _ => .error .dataAccessWhileBusy
  | .idle => .ok { s with status := s.statusCleared, shift := .busy b s.liveNow }

/-- The effect of a register write (R52, R54, R55). -/
def writeValue (r : RegId) (v : Byte) (s : State) : Except AccessFault State :=
  match r with
  | .ctrl => .ok { s with ctrl := v }
  | .status => .ok { s with status := s.statusWritten v }
  | .data => writeData v s

/-- `MemWrite(r, 1, v)`: its effect and the event `RegWrite(r, v)` with the value before masking (R62). -/
def memWrite (r : RegId) (v : Byte) (s : State) : Except AccessFault State :=
  match writeValue r v s with
  | .ok t => .ok (t.record (.regWrite r v))
  | .error f => .error f

/-- `GpioDir(line, dir)`: one recorded request that changes no state of the block (R65). -/
def gpioDir (line : Line) (dir : Dir) (s : State) : State := s.record (.gpio line dir)

/-- The number of transfers completed since reset: the `Wire` events of the history. -/
def wireCount (h : List Event) : Nat :=
  h.countP fun e =>
    match e with
    | .wire _ _ _ => true
    | .cmd _ => false
    | .resp _ _ => false
    | .regRead _ _ => false
    | .regWrite _ _ => false
    | .gpio _ _ => false

/-- `Peer(history, tx, choice)` (R58). -/
def peerAnswer (p : Peer) (h : List Event) (tx : Byte) (choice : Nat) : Byte :=
  match p with
  | .free => Config.peer h tx choice
  | .loopBack => tx
  | .scripted bytes => bytes.getD (wireCount h) (Config.peer h tx choice)

/-- The completion step of the shift engine for a transfer of `tx` (R57), atomic. -/
def completeTransfer (tx : Byte) (live : Bool) (s : State) : State :=
  let r := peerAnswer s.peer s.history tx s.choice
  { s with
    rx := some r
    status := s.statusCompleted
    shift := .idle
    history := s.history ++ [.wire tx r live]
    choice := s.choice + 1 }

/-- What becomes of a transfer at this opportunity, where the script says nothing (log 3). -/
def Schedule.afterScript (e : Schedule) (live : Bool) : Completion := if live then e.live else e.dead

/-- The schedule after a free opportunity. -/
def Schedule.nextOpportunity (e : Schedule) : Schedule := { e with opportunity := e.opportunity + 1 }

/-- A free opportunity: the transfer completes or goes on, as `Config.completes` has it (R57, R59, R124). -/
def freeOpportunity (tx : Byte) (live : Bool) (s : State) : State :=
  let t : State := { s with engine := s.engine.nextOpportunity }
  if Config.completes live s.engine.opportunity then completeTransfer tx live t else t

/-- One opportunity of the shift engine: enabled whenever a transfer is in progress (R57), taken or not as the schedule
says (R59, log 3). It never starts a transfer (R56). -/
def engineTurn (s : State) : State :=
  match s.shift with
  | .idle => s
  | .busy tx live =>
    match s.engine.script with
    | true :: rest => completeTransfer tx live { s with engine := { s.engine with script := rest } }
    | false :: rest => { s with engine := { s.engine with script := rest } }
    | [] =>
      match s.engine.afterScript live with
      | .completes => completeTransfer tx live s
      | .never => s
      | .free => freeOpportunity tx live s

/-- Whether the host may issue a command: no command is in progress (R37, R80). -/
def State.isIdle (s : State) : Bool :=
  match s.exec with
  | .idle => true
  | .busy _ _ _ => false

/-- `return (status, value)` (R10, R86): the response is recorded and `exec` becomes Idle. -/
def respond (st : Status) (value : Operand) (s : State) : State :=
  { s with exec := .idle, history := s.history ++ [.resp st value] }

/-- The state just after a command is issued (R80): `exec` is Busy at position 0 and `Cmd(word)` is recorded. -/
def issued (cmd : Instr) (s : State) : State :=
  { s with exec := .busy cmd 0 Locals.start, history := s.history ++ [.cmd (encode cmd)] }

/-- Issue a command (R80) and go on with `k`; while `exec` is Busy the issue is refused (R176). -/
def issue (cmd : Instr) (k : State → Host.Outcome State Fault Refusal) (s : State) : Host.Outcome State Fault Refusal :=
  if s.isIdle then k (issued cmd s) else .refused .commandWhileBusy

/-- Reset by the host (R190): every piece of the block's state at the value of R42; the parameters and the outside world
stay (log 10). -/
def restart (s : State) : State :=
  { s with
    running := false
    ctrl := s.params.ctrlReset
    status := s.params.statusReset
    rx := none
    shift := .idle
    exec := .idle
    history := []
    mark := none }

end Sys2Proof.Machine
end

