-- ==== Sys2Proof/Machine/Programs.lean ====
section
/-! DEFINITION. The pseudocode of the seven commands after their gates, one list of micro-steps per command, in the order
the rules write them (40_lifecycle.md R100, R105; 41_transfer.md R121, R128, R130, R140; 42_config.md R150, R155).
Position `mpc` of R37 indexes these lists; the position past a list's end is the command's `return (Ok, acc)` (log 8). -/

namespace Sys2Proof.Machine

/-- One micro-step (R10, R37): a register access, a GPIO request, a poll, or the write of `running`. -/
inductive MicroOp where
  /-- `GpioDir(line, dir)`. -/
  | gpio (line : Line) (dir : Dir)
  /-- `c <- MemRead(CTRL, 1)`. -/
  | readCtrl
  /-- `MemWrite(CTRL, 1, f c)`. -/
  | writeCtrl (f : Config.Params → Byte → Byte)
  /-- `s <- MemRead(STATUS, 1)`. -/
  | readStatus
  /-- `MemWrite(STATUS, 1, f s)`. -/
  | writeStatus (f : Config.Params → Byte → Byte)
  /-- `running <- v`. -/
  | setRunning (v : Bool)
  /-- `MemWrite(DATA, 1, b)` with `b` the byte for wire position `k` (R128). -/
  | send
  /-- One poll of the loop `repeat s <- MemRead(STATUS, 1) until (s & CF) != 0` (R122, R128). -/
  | poll
  /-- `r <- MemRead(DATA, 1)`, `acc <- acc | (zext(r) << (8*i))`; then the next wire position from micro-step `again`, or
  on past the loop after the last one (R128, R130, R140). -/
  | receive (again : Nat)

/-- `begin` after its gate (R100, R102, R103). -/
def beginProgram : List MicroOp :=
  [.gpio .select .output, .gpio .dataOut .output, .gpio .dataIn .input, .gpio .clock .output,
   .readCtrl, .writeCtrl ctrlBegun, .readStatus, .writeStatus statusBegun, .setRunning true]

/-- `end` after its gate (R105, R107). -/
def endProgram : List MicroOp :=
  [.readCtrl, .writeCtrl ctrlEnded, .readStatus, .writeStatus statusEnded,
   .gpio .select .input, .gpio .dataOut .input, .gpio .dataIn .input, .gpio .clock .input, .setRunning false]

/-- `XferByte` of R128, repeated over the wire positions of the command. -/
def xferProgram : List MicroOp := [.send, .poll, .receive 0]

/-- `transferByte` (R121): one `XferByte`. -/
def transferByteProgram : List MicroOp := xferProgram

/-- `transferWord` (R130): `XferByte` for k in 0 .. 1. -/
def transferWordProgram : List MicroOp := xferProgram

/-- `transferDWord` (R140): `XferByte` for k in 0 .. 3. -/
def transferDWordProgram : List MicroOp := xferProgram

/-- `setClockDivider d` after its gate (R150). -/
def setClockDividerProgram (d : Byte) : List MicroOp := [.readCtrl, .writeCtrl fun _ c => ctrlWithClock c d]

/-- `setDataMode m` after its gate (R155). -/
def setDataModeProgram (m : Byte) : List MicroOp := [.readCtrl, .writeCtrl fun _ c => ctrlWithMode c m]

/-- The micro-steps of a command (R37). -/
def program : Instr → List MicroOp
  | .beginBus => beginProgram
  | .endBus => endProgram
  | .transferByte _ => transferByteProgram
  | .transferWord _ => transferWordProgram
  | .transferDWord _ => transferDWordProgram
  | .setClockDivider d => setClockDividerProgram d
  | .setDataMode m => setDataModeProgram m

end Sys2Proof.Machine
end

