-- ==== Sys2Proof/Machine/Controller.lean ====
section
/-! DEFINITION. The controller (10_state.md R37): one micro-step, its interleaving with the shift engine
(20_memory.md R63), and the run of micro-steps one step shows (log 7). -/

namespace Sys2Proof.Machine

/-- Finish a register read at micro-step `mpc` of `cmd`: go on with the value and the new state, or fault (R175). -/
def afterRead (cmd : Instr) (mpc : Nat) (x : Except AccessFault (Byte × State)) (k : Byte → State → State) :
    Host.Outcome State Fault Refusal :=
  match x with
  | .ok (v, t) => .next (k v t)
  | .error f => .fault (f.inStep cmd mpc)

/-- Finish a register write at micro-step `mpc` of `cmd`: go on with the new state, or fault (R175). -/
def afterWrite (cmd : Instr) (mpc : Nat) (x : Except AccessFault State) (k : State → State) :
    Host.Outcome State Fault Refusal :=
  match x with
  | .ok t => .next (k t)
  | .error f => .fault (f.inStep cmd mpc)

/-- Move the controller to a position of its command, with these locals (R37). -/
def State.moveTo (s : State) (cmd : Instr) (mpc : Nat) (loc : Locals) : State :=
  { s with exec := .busy cmd mpc loc }

/-- One micro-step of the controller at position `mpc` of `cmd` (R10, R128). -/
def runOp (cmd : Instr) (mpc : Nat) (loc : Locals) (op : MicroOp) (s : State) : Host.Outcome State Fault Refusal :=
  match op with
  | .gpio line dir => .next ((gpioDir line dir s).moveTo cmd (mpc + 1) loc)
  | .readCtrl => afterRead cmd mpc (memRead .ctrl s) fun v t => t.moveTo cmd (mpc + 1) { loc with c := v }
  | .writeCtrl f => afterWrite cmd mpc (memWrite .ctrl (f s.params loc.c) s) fun t => t.moveTo cmd (mpc + 1) loc
  | .readStatus => afterRead cmd mpc (memRead .status s) fun v t => t.moveTo cmd (mpc + 1) { loc with s := v }
  | .writeStatus f => afterWrite cmd mpc (memWrite .status (f s.params loc.s) s) fun t => t.moveTo cmd (mpc + 1) loc
  | .setRunning v => .next ({ s with running := v }.moveTo cmd (mpc + 1) loc)
  | .send =>
    afterWrite cmd mpc (memWrite .data (byteToSend s.params cmd loc.k) s) fun t => t.moveTo cmd (mpc + 1) loc
  | .poll =>
    afterRead cmd mpc (memRead .status s) fun v t =>
      t.moveTo cmd (if v &&& s.params.CF ≠ 0 then mpc + 1 else mpc) { loc with s := v }
  | .receive again =>
    afterRead cmd mpc (memRead .data s) fun r t =>
      let acc := accumulate s.params cmd loc.k loc.acc r
      if loc.k < lastPosition cmd then t.moveTo cmd again { loc with k := loc.k + 1, acc := acc }
      else t.moveTo cmd (mpc + 1) { loc with acc := acc }

/-- One micro-step of the controller (R37). Past the end of its pseudocode a command returns `(Ok, acc)`; `acc` is 0 for
the commands that transfer nothing (R86). With no command in progress the controller does nothing. -/
def micro (s : State) : Host.Outcome State Fault Refusal :=
  match s.exec with
  | .idle => .next s
  | .busy cmd mpc loc =>
    match (program cmd)[mpc]? with
    | some op => runOp cmd mpc loc op s
    | none => .next (respond .ok loc.acc s)

/-- One micro-step of the machine: the shift engine's opportunity, then the controller's micro-step (R57, R63). -/
def tick (s : State) : Host.Outcome State Fault Refusal := micro (engineTurn s)

/-- Whether the controller is at a micro-step that polls (R122). -/
def atPoll (s : State) : Bool :=
  match s.exec with
  | .idle => false
  | .busy cmd mpc _ =>
    match (program cmd)[mpc]? with
    | some .poll => true
    | _ => false

/-- Whether nothing says that the transfer in progress will complete: the script is empty, and the schedule leaves it
open or lets it hang (R59, R177). -/
def awaitsPeer (s : State) : Bool :=
  match s.shift with
  | .idle => false
  | .busy _ live => s.engine.script.isEmpty && decide (s.engine.afterScript live ≠ .completes)

/-- Where a step ends before its pace is used up: the command has responded, or the controller polls for a completion
that is open or does not come (R59, R177), each further poll being a step of its own (log 7). -/
def atRest (s : State) : Bool := s.isIdle || (atPoll s && awaitsPeer s)

/-- At most `n` micro-steps, ending where the machine is at rest (log 7). -/
def settle : Nat → State → Host.Outcome State Fault Refusal
  | 0, s => .next s
  | n + 1, s =>
    if atRest s then .next s
    else
      match tick s with
      | .next t => settle n t
      | .fault f => .fault f
      | .refused r => .refused r

/-- The micro-steps one step shows of a command just issued or in progress (log 7). -/
def settleStep (s : State) : Host.Outcome State Fault Refusal := settle s.pace s

/-- A step with no command to take: a command in progress goes on, by at least one micro-step (R63, R177); with `exec`
Idle only the shift engine can act (R57), and the block waits for the host (R191). -/
def proceed (s : State) : Host.Outcome State Fault Refusal :=
  if s.isIdle then .next (engineTurn s)
  else
    match tick s with
    | .next t => settleStep t
    | .fault f => .fault f
    | .refused r => .refused r

end Sys2Proof.Machine
end

