-- ==== Sys2Proof/Machine/Configure.lean ====
section
/-! DEFINITION. The configuration commands `setClockDivider` and `setDataMode` (42_config.md R150 to R159), gated on
Running (R152). -/

namespace Sys2Proof.Machine

/-- `setClockDivider d` (R150); its micro-steps are `setClockDividerProgram`. -/
def execSetClockDivider (d : Byte) (s : State) : Host.Outcome State Fault Refusal :=
  issue (.setClockDivider d) (fun t => if t.running then settleStep t else .next (respond .notStarted 0 t)) s

/-- `setDataMode m` (R155); its micro-steps are `setDataModeProgram`. -/
def execSetDataMode (m : Byte) (s : State) : Host.Outcome State Fault Refusal :=
  issue (.setDataMode m) (fun t => if t.running then settleStep t else .next (respond .notStarted 0 t)) s

end Sys2Proof.Machine
end

