-- ==== Sys2Proof/Machine/Lifecycle.lean ====
section
/-! DEFINITION. The lifecycle commands `begin` and `end` (40_lifecycle.md R100 to R110). -/

namespace Sys2Proof.Machine

/-- `begin` (R100): gated on Stopped (R101); its micro-steps are `beginProgram`. -/
def execBegin (s : State) : Host.Outcome State Fault Refusal :=
  issue .beginBus (fun t => if t.running then .next (respond .alreadyStarted 0 t) else settleStep t) s

/-- `end` (R105): gated on Running (R106); its micro-steps are `endProgram`. -/
def execEnd (s : State) : Host.Outcome State Fault Refusal :=
  issue .endBus (fun t => if t.running then settleStep t else .next (respond .notStarted 0 t)) s

end Sys2Proof.Machine
end

