-- ==== Sys2Proof/Machine/Transfer.lean ====
section
/-! DEFINITION. The transfer commands (41_transfer.md R120 to R145). None has a gate (R120). Each holds `exec` Busy to its
response (R131, R142); where an exchange never completes it polls for ever (R122). -/

namespace Sys2Proof.Machine

/-- `transferByte b` (R121); its micro-steps are `transferByteProgram`. -/
def execTransferByte (b : Byte) (s : State) : Host.Outcome State Fault Refusal :=
  issue (.transferByte b) settleStep s

/-- `transferWord w` (R130): most-significant byte first; its micro-steps are `transferWordProgram`. -/
def execTransferWord (w : Half) (s : State) : Host.Outcome State Fault Refusal :=
  issue (.transferWord w) settleStep s

/-- `transferDWord d` (R140): in the order `DWORD_ORDER`; its micro-steps are `transferDWordProgram`. -/
def execTransferDWord (d : Operand) (s : State) : Host.Outcome State Fault Refusal :=
  issue (.transferDWord d) settleStep s

end Sys2Proof.Machine
end

