-- ==== Sys2Proof/Machine/Dispatch.lean ====
section
/-! DEFINITION. One arm per command, each a direct call of its meaning. -/

namespace Sys2Proof.Machine

def exec (i : Instr) (s : State) : Host.Outcome State Fault Refusal :=
  match i with
  | .beginBus => Sys2Proof.Machine.execBegin s
  | .endBus => Sys2Proof.Machine.execEnd s
  | .transferByte b => Sys2Proof.Machine.execTransferByte b s
  | .transferWord w => Sys2Proof.Machine.execTransferWord w s
  | .transferDWord d => Sys2Proof.Machine.execTransferDWord d s
  | .setClockDivider d => Sys2Proof.Machine.execSetClockDivider d s
  | .setDataMode m => Sys2Proof.Machine.execSetDataMode m s

end Sys2Proof.Machine
end

