-- ==== Sys2Proof/Machine/HostPort.lean ====
section
/-! DEFINITION. The host's side of the block: a word presented (30_encoding.md R80, 60_exceptions.md R173), a reset
(R190), the next move of the host (R187), and the mark a stopped run leaves (R174, R175). -/

namespace Sys2Proof.Machine

/-- A command word reaches the block: refused while a command executes, before it is decoded (R173, R176); refused if it
spells no command (R174); else the command is executed. -/
def present (w : CommandWord) (s : State) : Host.Outcome State Fault Refusal :=
  match s.exec with
  | .idle =>
    match decode w with
    | .command i => exec i s
    | .illegalCommand _ => .refused .illegalCommand
  | .busy _ _ _ => .refused .commandWhileBusy

/-- The host's next move, if it makes one now, else the block goes on by itself (log 1). A waiting host issues and resets
only while `exec` is Idle (R80, R190). -/
def hostTurn (s : State) : Host.Outcome State Fault Refusal :=
  match s.host with
  | [] => proceed s
  | .issue w :: rest => if s.isIdle then present w { s with host := rest } else proceed s
  | .issueAtOnce w :: rest => present w { s with host := rest }
  | .reset :: rest => if s.isIdle then .next (restart { s with host := rest }) else proceed s

/-- A run that has ended stays ended: no step clears the mark (R174, R175). -/
def turn (s : State) : Host.Outcome State Fault Refusal :=
  match s.mark with
  | some (.refused r) => .refused r
  | some (.faulted f) => .fault f
  | none => hostTurn s

/-- The state an outcome leaves: the next state, or the state it was in with its refusal mark set or its fault recorded
(R174, R175). -/
def leaves (s : State) (o : Host.Outcome State Fault Refusal) : State :=
  match o with
  | .next t => t
  | .refused r => { s with mark := some (.refused r) }
  | .fault f => { s with mark := some (.faulted f) }

/-- The host's move that has the next step take the command word `w`. -/
def placeWord (w : CommandWord) (s : State) : State := { s with host := .issueAtOnce w :: s.host }

end Sys2Proof.Machine
end

