-- ==== Sys2Proof/Machine/Step.lean ====
section
/-! DEFINITION. One step of the machine, and the placing of the next command word. -/

namespace Sys2Proof.Machine

/-- One step: a stopped run stays stopped; else the host's next move, or the block goes on by itself. -/
def step (s : State) : Host.Outcome State Fault Refusal := turn s

/-- `s` after one step, with the refusal mark of R174 or the fault record of R175 where the step stops. -/
def advance (s : State) : State := leaves s (step s)

/-- The block fetches nothing (R66): the host issues the word. The table's rows are whole 40-bit command words, so the
word of the row's `nbits` bits (every bit above them 0) is what the host issues at the next step (log 1). -/
def State.withFetchWord (s : State) (nbits w : Nat) : State := placeWord (BitVec.ofNat 40 (w % 2 ^ nbits)) s

end Sys2Proof.Machine
end

