-- ==== Sys2Proof/Machine/Assembler.lean ====
section
/-! DEFINITION. The textual syntax of a command and its assembly to a command word (30_encoding.md R87, R88). A line is
the name and, where an argument stands, one blank and the literal (log 12). -/

namespace Sys2Proof.Machine

/-- The command a name names (R87). -/
def commandName (cs : List Char) : Option CommandName :=
  if cs = "begin".toList then some .beginBus
  else if cs = "end".toList then some .endBus
  else if cs = "transferByte".toList then some .transferByte
  else if cs = "transferWord".toList then some .transferWord
  else if cs = "transferDWord".toList then some .transferDWord
  else if cs = "setClockDivider".toList then some .setClockDivider
  else if cs = "setDataMode".toList then some .setDataMode
  else none

/-- The value of a digit: its place among the digits of its base, counted from 0 (R9). -/
def digitValue (digits : String) (c : Char) : Option Nat := digits.toList.idxOf? c

/-- A decimal digit (R87). -/
def decimalDigit : Char → Option Nat := digitValue "0123456789"

/-- A hexadecimal digit, capital or small (R87; log 12). -/
def hexDigit (c : Char) : Option Nat :=
  match digitValue "0123456789ABCDEF" c with
  | some d => some d
  | none => digitValue "0123456789abcdef" c

/-- The number a list of digits spells after the number `n` read so far. -/
def readDigits (base : Nat) (digit : Char → Option Nat) : List Char → Nat → Option Nat
  | [], n => some n
  | c :: cs, n =>
    match digit c with
    | some d => readDigits base digit cs (n * base + d)
    | none => none

/-- A hexadecimal literal `0x…` or a decimal literal (R9, R87). -/
def readLiteral : List Char → Option Nat
  | [] => none
  | '0' :: 'x' :: c :: cs => readDigits 16 hexDigit (c :: cs) 0
  | c :: cs => readDigits 10 decimalDigit (c :: cs) 0

/-- Read one line (R87). -/
def readLine (cs : List Char) : Option TextCommand :=
  match commandName (cs.takeWhile (· ≠ ' ')), cs.dropWhile (· ≠ ' ') with
  | none, _ => none
  | some name, [] => some { name := name, argument := none }
  | some name, _ :: literal =>
    match readLiteral literal with
    | some n => some { name := name, argument := some n }
    | none => none

/-- The command of a text command (R87, R88); a text command that is not well formed is an assembly error. -/
def assemble (t : TextCommand) : Option Instr :=
  if t.wellFormed then
    let n := t.argument.getD 0
    match t.name with
    | .beginBus => some .beginBus
    | .endBus => some .endBus
    | .transferByte => some (.transferByte (BitVec.ofNat 8 n))
    | .transferWord => some (.transferWord (BitVec.ofNat 16 n))
    | .transferDWord => some (.transferDWord (BitVec.ofNat 32 n))
    | .setClockDivider => some (.setClockDivider (BitVec.ofNat 8 n))
    | .setDataMode => some (.setDataMode (BitVec.ofNat 8 n))
  else none

/-- The command word of one line (R88): every text command assembles to exactly one command word (R87). -/
def assembleLine (line : String) : Option CommandWord :=
  match readLine line.toList with
  | some t => (assemble t).map encode
  | none => none

end Sys2Proof.Machine
end

