-- ==== Sys2Proof/Safety.lean ====
section
/-! DEFINITION. The terms in which claims are made: when a command runs to its response, the net effect of a byte
exchange, what the history says, and the invariants of the block. -/

namespace Sys2Proof.Machine

/-! ## Conditions on a state -/

/-- No command and no transfer is in progress: so between commands (R186). -/
def State.ready (s : State) : Prop := s.exec = .idle ∧ s.shift = .idle

/-- The step's pace is enough for any command, however many polls the schedule asks for (log 7). -/
def State.roomy (s : State) : Prop := s.engine.script.length + 16 ≤ s.pace

/-- `PeerResponsive` (R59): every live transfer eventually completes. Where the schedule leaves live transfers open, it
is weak fairness: after any number of opportunities one more completes. Of a transfer that is not live it says nothing. -/
def State.peerResponsive (s : State) : Prop :=
  match s.engine.live with
  | .completes => True
  | .never => False
  | .free => ∀ n, ∃ m, n ≤ m ∧ Config.completes true m = true

/-- The next `n` exchanges started from this state complete for certain: the schedule's script has a completion for
each, or its rule past the script completes them. For transfers that are not live this is the outcome R124 admits beside
the hang. -/
def State.answers (n : Nat) (s : State) : Prop :=
  n ≤ s.engine.script.count true ∨ s.engine.afterScript s.liveNow = .completes

/-- The next `n` exchanges started from this state complete, and nothing says that one more will: the schedule's script
has `n` completions, and past it the schedule leaves the transfer open or lets it hang (R59, R124, R177). -/
def State.stallsAfter (n : Nat) (s : State) : Prop :=
  s.engine.script.count true = n ∧ s.engine.afterScript s.liveNow ≠ .completes

/-- The transfer in progress never completes: the script is empty and the schedule lets it hang (R59, R177). -/
def neverCompletes (s : State) : Bool :=
  match s.shift with
  | .idle => false
  | .busy _ live => s.engine.script.isEmpty && decide (s.engine.afterScript live = .never)

/-- A good end of a run (R186): `exec` Idle, the host with nothing left, no refusal and no fault. -/
def State.goodEnd (s : State) : Prop := s.exec = .idle ∧ s.host = [] ∧ s.mark = none

/-- The failure a command's gate answers, by the lifecycle flag (R22, R171); the transfers have no gate (R120). -/
def gateFailure (i : Instr) (running : Bool) : Option Status :=
  match i with
  | .beginBus => if running then some .alreadyStarted else none
  | .endBus => if running then none else some .notStarted
  | .transferByte _ => none
  | .transferWord _ => none
  | .transferDWord _ => none
  | .setClockDivider _ => if running then none else some .notStarted
  | .setDataMode _ => if running then none else some .notStarted

/-! ## The net effect of a byte exchange -/

/-- How many polls read COMPLETE = 0 before the exchange completes (R122). -/
def Schedule.waits (e : Schedule) : Nat := (e.script.takeWhile (!·)).length

/-- The schedule after the exchange completed. -/
def Schedule.afterExchange (e : Schedule) : Schedule := { e with script := (e.script.dropWhile (!·)).tail }

/-- The history just before the exchange of `b` completes: the write of DATA, then the polls that read COMPLETE = 0. -/
def exchangeStarted (b : Byte) (s : State) : List Event :=
  s.history ++ .regWrite .data b :: List.replicate s.engine.waits (.regRead .status s.statusCleared)

/-- The byte the peer answers in the exchange of `b` (R58). -/
def received (b : Byte) (s : State) : Byte := peerAnswer s.peer (exchangeStarted b s) b s.choice

/-- The state after the whole of `XferByte(b)` (R128), the controller's own position apart: DATA written, the polls, the
completion step, the poll that sees it, and the read of DATA. -/
def exchange (b : Byte) (s : State) : State :=
  { s with
    rx := some (received b s)
    status := s.statusCompleted
    history := exchangeStarted b s
      ++ [.wire b (received b s) s.liveNow, .regRead .status s.statusCompleted, .regRead .data (received b s)]
    choice := s.choice + 1
    engine := s.engine.afterExchange }

/-- The state after the first `n` exchanges of a transfer, at the wire positions 0 to `n - 1` (R130, R140). -/
def exchanges (cmd : Instr) : Nat → State → State
  | 0, s => s
  | n + 1, s => exchange (byteToSend s.params cmd (Fin.ofNat 4 n)) (exchanges cmd n s)

/-- The accumulator after the first `n` exchanges of a transfer (R130, R140). -/
def gathered (cmd : Instr) : Nat → State → Operand
  | 0, _ => 0
  | n + 1, s =>
    accumulate s.params cmd (Fin.ofNat 4 n) (gathered cmd n s)
      (received (byteToSend s.params cmd (Fin.ofNat 4 n)) (exchanges cmd n s))

/-- The command `cmd`, executed from `s`, ends with the response `(Ok, v)` after some number of steps, with no command and
no transfer in progress (R86, R59). -/
def returnsOk (cmd : Instr) (v : Operand) (s : State) : Prop :=
  ∃ (u : State) (k : Nat) (t : State), exec cmd s = .next u ∧ Host.Core.run Sys2Proof.core k u = .next t
    ∧ t.ready ∧ t.complete = true ∧ t.history.getLast? = some (.resp .ok v)

/-! ## What the history says -/

/-- Commands issued (R80). -/
def commandCount (h : List Event) : Nat := h.countP fun e => match e with | .cmd _ => true | _ => false

/-- Responses delivered (R86). -/
def responseCount (h : List Event) : Nat := h.countP fun e => match e with | .resp _ _ => true | _ => false

/-- Transfers started: writes of DATA (R55). -/
def startCount (h : List Event) : Nat := h.countP fun e => match e with | .regWrite .data _ => true | _ => false

/-- The byte received by the last completed transfer, if any (R35). -/
def lastReceived (h : List Event) : Option Byte :=
  h.foldl (fun r e => match e with | .wire _ rx _ => some rx | _ => r) none

/-- Whether an event is a register access or a GPIO request: what a failed gate makes none of (R101, R106, R152). -/
def Event.isAccess : Event → Bool
  | .regRead _ _ => true
  | .regWrite _ _ => true
  | .gpio _ _ => true
  | .cmd _ => false
  | .resp _ _ => false
  | .wire _ _ _ => false

/-! ## Invariants -/

/-- Whether a command is one of the three transfers. -/
def isTransfer : Instr → Bool
  | .beginBus => false
  | .endBus => false
  | .transferByte _ => true
  | .transferWord _ => true
  | .transferDWord _ => true
  | .setClockDivider _ => false
  | .setDataMode _ => false

/-- ENABLE, MASTER and HISPEED all read `b`. -/
def State.gateBits (s : State) (b : Bool) : Prop := s.enable = b ∧ s.master = b ∧ s.hispeed = b

/-- R110, and what of it holds inside a command: between commands `running` is true exactly when ENABLE, MASTER and
HISPEED are 1; inside `begin` and `end` each of the four follows the micro-step that writes it (R100, R105), and the
value read from a register is still the register's when it is written back (R68). -/
def State.lifecycleInv (s : State) : Prop :=
  match s.exec with
  | .idle => s.gateBits s.running
  | .busy .beginBus mpc loc =>
    s.running = decide (9 ≤ mpc) ∧ s.enable = decide (6 ≤ mpc) ∧ s.master = decide (6 ≤ mpc)
      ∧ s.hispeed = decide (8 ≤ mpc) ∧ (mpc = 5 → loc.c = s.ctrl) ∧ (mpc = 7 → loc.s = s.status)
  | .busy .endBus mpc loc =>
    s.running = decide (mpc < 9) ∧ s.enable = decide (mpc < 2) ∧ s.master = decide (mpc < 2)
      ∧ s.hispeed = decide (mpc < 4) ∧ (mpc = 1 → loc.c = s.ctrl) ∧ (mpc = 3 → loc.s = s.status)
  | .busy (.setClockDivider _) mpc loc => s.running = true ∧ s.gateBits true ∧ (mpc = 1 → loc.c = s.ctrl)
  | .busy (.setDataMode _) mpc loc => s.running = true ∧ s.gateBits true ∧ (mpc = 1 → loc.c = s.ctrl)
  | .busy (.transferByte _) _ _ => s.gateBits s.running
  | .busy (.transferWord _) _ _ => s.gateBits s.running
  | .busy (.transferDWord _) _ _ => s.gateBits s.running

/-- A transfer is over: the receive value is there and COMPLETE is 1 (R57, R123). -/
def State.exchanged (s : State) : Prop := s.shift = .idle ∧ s.complete = true ∧ s.rx ≠ none

/-- R159, R186, R195: the shift engine is Busy only while a transfer command polls, with the byte it sent and COMPLETE 0;
once the engine is Idle at a poll, and at the read of DATA, the transfer is over. -/
def State.transferInv (s : State) : Prop :=
  match s.exec with
  | .idle => s.shift = .idle
  | .busy cmd mpc loc =>
    if isTransfer cmd then
      loc.k ≤ lastPosition cmd
        ∧ match mpc with
          | 0 => s.shift = .idle
          | 1 => (s.shift = .busy (byteToSend s.params cmd loc.k) s.liveNow ∧ s.complete = false) ∨ s.exchanged
          | _ => s.exchanged
    else s.shift = .idle

/-- The invariant of the block: legal parameters (R7), the lifecycle (R110) and the transfer (R195). -/
def State.Inv (s : State) : Prop := s.params.legal = true ∧ s.lifecycleInv ∧ s.transferInv

/-- R35: `rx` is the byte received by the last completed transfer, none if none has completed. -/
def State.rxInv (s : State) : Prop := s.rx = lastReceived s.history

/-- Commands in progress: one while `exec` is Busy (R37). -/
def Exec.inProgress : Exec → Nat
  | .idle => 0
  | .busy _ _ _ => 1

/-- Transfers in progress: one while the shift engine is Busy (R36). -/
def Shift.inProgress : Shift → Nat
  | .idle => 0
  | .busy _ _ => 1

/-- R80, R86: every command issued has had one response, but for the one in progress. -/
def State.responseInv (s : State) : Prop :=
  commandCount s.history = responseCount s.history + s.exec.inProgress

/-- R56, R70: every byte exchanged was started by a write of DATA; the one write more is the transfer in progress. -/
def State.wireInv (s : State) : Prop :=
  startCount s.history = wireCount s.history + s.shift.inProgress

/-! ## Comparing runs -/

/-- A step that goes on with the command `i`, already in progress, answers `t` (R37, R63): so a transfer goes on past a
poll at which the step before ended (log 7). -/
def continues (i : Instr) (s t : State) : Prop := (∃ mpc loc, s.exec = .busy i mpc loc) ∧ step s = .next t

/-- Apply `f` to the next state of an outcome. -/
def mapNext (f : State → State) (o : Host.Outcome State Fault Refusal) : Host.Outcome State Fault Refusal :=
  match o with
  | .next t => .next (f t)
  | .fault r => .fault r
  | .refused r => .refused r

/-- The same state at the finest grain: every step shows one micro-step (log 7). -/
def State.finest (s : State) : State := { s with pace := 0 }

/-- A host that waits for the response to the command before (R194): its next move is not an issue at once. -/
def State.hostWaits (s : State) : Prop := ∀ w rest, s.host ≠ .issueAtOnce w :: rest

end Sys2Proof.Machine
end

