-- ==== Sys2Proof/Certificates/Slice0/Obligations.lean ====
section
/-! DEFINITION. The statements about the model, one `Obligations.<Name>` each; OBLIGATIONS.json lists them. A statement about
a free value or about the outside world (`peer`, `engine`, `choice`, `host`, `pace`) holds for every value of it. -/

open Sys2Proof Sys2Proof.Machine

/-! ## Reset -/

/-- R190, R42: a reset by the host, which issues it only while `exec` is Idle, puts every piece of the block's state at its
reset value; with legal parameters ENABLE, MASTER, COMPLETE and HISPEED are then 0. -/
def Obligations.ResetMoveGivesResetState : Prop :=
  ∀ (s : State) (rest : List HostMove), s.mark = none → s.host = .reset :: rest → s.exec = .idle →
    ∃ t, step s = .next t ∧ t.running = false ∧ t.ctrl = s.params.ctrlReset ∧ t.status = s.params.statusReset
      ∧ t.rx = none ∧ t.shift = .idle ∧ t.exec = .idle ∧ t.history = [] ∧ t.mark = none
      ∧ (s.params.legal = true →
          t.enable = false ∧ t.master = false ∧ t.complete = false ∧ t.hispeed = false)

/-- The reset state: Stopped (R22), at the default parameters of R7 both registers 0x00, and every invariant below holds.
That the parameters stand in the state is the model's choice (log 4). -/
def Obligations.ResetStateMeetsInvariants : Prop :=
  State.reset.running = false ∧ State.reset.ctrl = 0x00 ∧ State.reset.status = 0x00 ∧ State.reset.ready
    ∧ State.reset.Inv ∧ State.reset.rxInv ∧ State.reset.responseInv ∧ State.reset.wireInv

/-! ## Invariants of every step -/

/-- Every step keeps the invariant of the block: legal parameters; between commands `running` is true exactly when ENABLE,
MASTER and HISPEED are 1 (the sentence R110 derives); the shift engine is Busy only while a transfer polls (the sentence
R159 and R195 derive). -/
def Obligations.StepKeepsInvariant : Prop :=
  ∀ s t : State, s.Inv → step s = .next t → t.Inv

/-- Under the invariant no step of a run that has not stopped faults: the sentence R195 derives. -/
def Obligations.CommandsNeverFault : Prop :=
  ∀ s : State, s.Inv → s.mark = none → ∀ f, step s ≠ .fault f

/-- Every step keeps: `rx` is the byte received by the last completed transfer since reset, none if there was none (R35,
R57). -/
def Obligations.ReceiveValueIsLastByteReceived : Prop :=
  ∀ s t : State, s.rxInv → step s = .next t → t.rxInv

/-- Every step keeps: each command issued has had exactly one response, but for the one in progress (R80, R86). -/
def Obligations.EveryCommandHasOneResponse : Prop :=
  ∀ s t : State, s.responseInv → step s = .next t → t.responseInv

/-- Every step keeps: the bytes exchanged are as many as the writes of DATA, but for the transfer in progress (R56, R70). -/
def Obligations.EveryExchangeIsStartedByDataWrite : Prop :=
  ∀ s t : State, s.wireInv → step s = .next t → t.wireInv

/-- Every step appends to the history and rewrites nothing, but for a reset, which empties it (R38, R190). -/
def Obligations.HistoryIsOnlyAppendedTo : Prop :=
  ∀ s t : State, step s = .next t →
    s.history <+: t.history ∨ ((∃ rest, s.host = .reset :: rest) ∧ s.exec = .idle ∧ t.history = [])

/-- No step changes the parameters or the peer (R43). -/
def Obligations.StepKeepsConfiguration : Prop :=
  ∀ s t : State, step s = .next t → t.params = s.params ∧ t.peer = s.peer

/-! ## Encoding -/

/-- Decoding the word of a command gives the command back, for every command and every argument (R82, R83). -/
def Obligations.DecodeOfEncodeIsTheCommand : Prop :=
  ∀ i : Instr, decode (encode i) = .command i

/-- A word that decodes to a command is the word of that command: no other word means it (R83, R85). -/
def Obligations.EncodeOfDecodedIsTheWord : Prop :=
  ∀ (x : CommandWord) (i : Instr), decode x = .command i → encode i = x

/-- The words the spec writes out decode to the commands it names (R88's examples, 95_test_vectors.md 2.1). -/
def Obligations.WrittenOutWordsDecode : Prop :=
  decode 0x0100000000#40 = .command .beginBus
    ∧ decode 0x0200000000#40 = .command .endBus
    ∧ decode 0x03000000FF#40 = .command (.transferByte 0xFF)
    ∧ decode 0x0400001234#40 = .command (.transferWord 0x1234)
    ∧ decode 0x05AABBCCDD#40 = .command (.transferDWord 0xAABBCCDD)
    ∧ decode 0x0600000006#40 = .command (.setClockDivider 6)
    ∧ decode 0x0700000003#40 = .command (.setDataMode 3)

/-- R84: a word with a reserved opcode spells no command: the verdict names the reserved opcode, and a step that takes it
with `exec` Idle, by either of the host's issues, is refused with nothing but the refusal mark set. -/
def Obligations.ReservedOpcodesAreRefused : Prop :=
  ∀ x : CommandWord, opField x = 0x00#8 ∨ 0x08#8 ≤ opField x →
    decode x = .illegalCommand .reservedOpcode
      ∧ ∀ (s : State) (rest : List HostMove), s.mark = none → s.exec = .idle →
          (s.host = .issue x :: rest ∨ s.host = .issueAtOnce x :: rest) →
          step s = .refused .illegalCommand ∧ advance s = { s with mark := some (.refused .illegalCommand) }

/-- R85: a word with a defined opcode and a nonzero unused operand bit spells no command: the verdict names the unused bits,
and a step that takes it with `exec` Idle, by either of the host's issues, is refused with nothing but the refusal mark
set. The unused bits of a command's row are those of its mask (R82, R83). -/
def Obligations.UnusedOperandBitsAreRefused : Prop :=
  ∀ (x : CommandWord) (i : Instr), opField x = i.opcode → operandField x &&& operandField i.rowMask ≠ 0 →
    decode x = .illegalCommand .unusedOperandBits
      ∧ ∀ (s : State) (rest : List HostMove), s.mark = none → s.exec = .idle →
          (s.host = .issue x :: rest ∨ s.host = .issueAtOnce x :: rest) →
          step s = .refused .illegalCommand ∧ advance s = { s with mark := some (.refused .illegalCommand) }

/-- A text command assembles to the word with the opcode of its name (R83, R88), and an argument that fits its width is
the operand unchanged (R82, R88); one that does not fit is an assembly error (R87). That a missing argument, and an argument
to a name that takes none, are assembly errors too is the model's choice (log 12): R87 gives no rule for them. -/
def Obligations.AssemblyPlacesTheArgument : Prop :=
  (∀ (name : CommandName) (w n : Nat), name.argumentWidth? = some w → n < 2 ^ w →
      ∃ i, assemble { name := name, argument := some n } = some i ∧ opField (encode i) = name.opcode
        ∧ (operandField (encode i)).toNat = n)
    ∧ (∀ (name : CommandName) (w n : Nat), name.argumentWidth? = some w → 2 ^ w ≤ n →
        assemble { name := name, argument := some n } = none)
    ∧ (∀ name : CommandName, name.argumentWidth? = none →
        ∃ i, assemble { name := name, argument := none } = some i ∧ opField (encode i) = name.opcode
          ∧ operandField (encode i) = 0)
    ∧ (∀ (name : CommandName) (n : Nat), name.argumentWidth? = none →
        assemble { name := name, argument := some n } = none)
    ∧ (∀ (name : CommandName) (w : Nat), name.argumentWidth? = some w →
        assemble { name := name, argument := none } = none)

/-! ## The step and the host -/

/-- The step takes the host's next word (R66, R80): with `exec` Idle it is the execution of the command the word decodes to,
from the state less that move of the host; `withFetchWord` makes any word the one the next step takes. That the host's words
stand in the state is the model's choice (log 1). -/
def Obligations.StepRunsDecodedCommand : Prop :=
  (∀ (s : State) (x : CommandWord) (rest : List HostMove) (i : Instr), s.mark = none → s.exec = .idle →
      (s.host = .issue x :: rest ∨ s.host = .issueAtOnce x :: rest) → decode x = .command i →
      step s = exec i { s with host := rest })
    ∧ ∀ (s : State) (x : CommandWord) (i : Instr), s.mark = none → s.exec = .idle → decode x = .command i →
        step (s.withFetchWord 40 x.toNat) = exec i s

/-- A command issued while `exec` is Busy is refused (R176), whatever the word, before it is decoded, and nothing but the
refusal mark is set. That a word which spells no command is refused so too, and not as an illegal command, is the model's
reading of the two sentences of R173 (log 14). -/
def Obligations.BusyControllerRefusesCommands : Prop :=
  ∀ s : State, s.exec ≠ .idle →
    (∀ i, exec i s = .refused .commandWhileBusy)
      ∧ ∀ (x : CommandWord) (rest : List HostMove), s.mark = none → s.host = .issueAtOnce x :: rest →
          step s = .refused .commandWhileBusy ∧ advance s = { s with mark := some (.refused .commandWhileBusy) }

/-- No step clears the mark of a stopped run (R174, R175). That a step of a stopped run answers the same refusal or fault
again, and changes nothing else either, is the model's choice (log 5). -/
def Obligations.MarkIsNeverCleared : Prop :=
  ∀ s : State,
    (∀ r, s.mark = some (.refused r) → step s = .refused r ∧ advance s = s)
      ∧ (∀ f, s.mark = some (.faulted f) → step s = .fault f ∧ advance s = s)

/-- With the host having nothing left and no command or transfer in progress, the block waits: a step changes nothing (R191,
R186). That waiting is a step of its own is the model's choice (log 11). -/
def Obligations.IdleBlockWaits : Prop :=
  ∀ s : State, s.mark = none → s.ready → s.host = [] → step s = .next s

/-- R63: a step of many micro-steps is the same as its micro-steps one by one: whatever state a command reaches at the
state's pace, it reaches at the finest pace, its issue and then one micro-step a step. The pace is the model's choice
(log 7). -/
def Obligations.CommandIsItsMicroStepsOneByOne : Prop :=
  ∀ (i : Instr) (s t : State), s.mark = none → s.hostWaits → exec i s = .next t →
    ∃ u k, exec i s.finest = .next u ∧ Host.Core.run Sys2Proof.core k u = .next t.finest

/-! ## Registers, the shift engine and the response -/

/-- R52, R53, R54, R55, R62: what a read and a write of each register do, and the event each records; a read of DATA and a
write of DATA fault while a transfer is in progress, and a read of DATA faults before any transfer has completed. -/
def Obligations.RegisterAccesses : Prop :=
  ∀ (s : State) (v : Byte),
    memRead .ctrl s = .ok (s.ctrl, s.record (.regRead .ctrl s.ctrl))
      ∧ memWrite .ctrl v s = .ok ({ s with ctrl := v }.record (.regWrite .ctrl v))
      ∧ memRead .status s = .ok (s.status, s.record (.regRead .status s.status))
      ∧ memWrite .status v s
          = .ok ({ s with status := (v &&& ~~~s.params.CF) ||| (s.status &&& s.params.CF) }.record (.regWrite .status v))
      ∧ (∀ tx live, s.shift = .busy tx live →
          memRead .data s = .error .dataAccessWhileBusy ∧ memWrite .data v s = .error .dataAccessWhileBusy)
      ∧ (s.shift = .idle → s.rx = none → memRead .data s = .error .unwrittenRead)
      ∧ (∀ r, s.shift = .idle → s.rx = some r → memRead .data s = .ok (r, s.record (.regRead .data r)))
      ∧ (s.shift = .idle → memWrite .data v s
          = .ok ({ s with
                    status := s.status &&& ~~~s.params.CF
                    shift := .busy v (decide (s.ctrl &&& s.params.EN ≠ 0) && decide (s.ctrl &&& s.params.MS ≠ 0)) }.record
                  (.regWrite .data v)))

/-- R56, R57: the shift engine acts only while a transfer is in progress; its completion step stores the peer's byte, sets
COMPLETE, becomes Idle and records the exchange, all at once, and changes nothing else of the block. Which opportunity it
takes is the model's data (log 3): the script's, and past the script to complete, to hang, or to do either as the free
`Config.completes` has it, by one rule for live transfers and one for the others. -/
def Obligations.CompletionStepOfShiftEngine : Prop :=
  (∀ s : State, s.shift = .idle → engineTurn s = s)
    ∧ ∀ (s : State) (tx : Byte) (live : Bool), s.shift = .busy tx live →
        let r := peerAnswer s.peer s.history tx s.choice
        let completed (e : Schedule) : State := { s with
          rx := some r
          status := s.status ||| s.params.CF
          shift := .idle
          history := s.history ++ [.wire tx r live]
          engine := e
          choice := s.choice + 1 }
        let counted : Schedule := { s.engine with opportunity := s.engine.opportunity + 1 }
        let rule : Completion := if live = true then s.engine.live else s.engine.dead
        (∀ rest, s.engine.script = false :: rest →
            engineTurn s = { s with engine := { s.engine with script := rest } })
          ∧ (∀ rest, s.engine.script = true :: rest → engineTurn s = completed { s.engine with script := rest })
          ∧ (s.engine.script = [] → rule = .completes → engineTurn s = completed s.engine)
          ∧ (s.engine.script = [] → rule = .never → engineTurn s = s)
          ∧ (s.engine.script = [] → rule = .free → engineTurn s =
              if Config.completes live s.engine.opportunity = true then completed counted else { s with engine := counted })

/-- R58: the free peer's byte is the free value of the history, the byte sent and the choice; the loop-back peer's is the
byte sent; the scripted peer's is the n-th byte of its list on the n-th transfer since reset. Past its list, where R58 gives
no byte, it is the free peer's (the model's choice, log 2). -/
def Obligations.PeerAnswersByItsKind : Prop :=
  ∀ (h : List Event) (tx : Byte) (c : Nat),
    peerAnswer .free h tx c = Config.peer h tx c
      ∧ peerAnswer .loopBack h tx c = tx
      ∧ ∀ bytes : List Byte,
          (∀ r, bytes[wireCount h]? = some r → peerAnswer (.scripted bytes) h tx c = r)
            ∧ (bytes.length ≤ wireCount h → peerAnswer (.scripted bytes) h tx c = Config.peer h tx c)

/-- R86: the response word is `{status[1:0], value[31:0]}` with Ok 0, AlreadyStarted 1, NotStarted 2; delivering it records
it, makes `exec` Idle and changes nothing else. -/
def Obligations.ResponseWordAndDelivery : Prop :=
  ∀ (st : Status) (v : Operand) (s : State),
    (responseWord st v).toNat = (match st with | .ok => 0 | .alreadyStarted => 1 | .notStarted => 2) * 2 ^ 32 + v.toNat
      ∧ respond st v s = { s with exec := .idle, history := s.history ++ [.resp st v] }

/-! ## The lifecycle commands -/

/-- R100 to R103: `begin` while Stopped requests the four directions, then sets ENABLE and MASTER in CTRL, then HISPEED in
STATUS, then `running`, and responds Ok; while Running it responds AlreadyStarted and does nothing else. (The GPIO directions
and the order of the accesses are the spec's own decisions D15, D16, D17, as R100 to R103 state them.) -/
def Obligations.BeginCommand : Prop :=
  ∀ s : State,
    (s.params.legal = true → s.ready → s.roomy → s.running = false →
      exec .beginBus s = .next { s with
        running := true
        ctrl := s.ctrl ||| s.params.EN ||| s.params.MS
        status := s.status ||| s.params.HS
        history := s.history ++
          [.cmd 0x0100000000, .gpio .select .output, .gpio .dataOut .output, .gpio .dataIn .input, .gpio .clock .output,
           .regRead .ctrl s.ctrl, .regWrite .ctrl (s.ctrl ||| s.params.EN ||| s.params.MS),
           .regRead .status s.status, .regWrite .status (s.status ||| s.params.HS), .resp .ok 0] })
    ∧ (s.exec = .idle → s.running = true →
        exec .beginBus s = .next { s with history := s.history ++ [.cmd 0x0100000000, .resp .alreadyStarted 0] })

/-- R105 to R107: `end` while Running clears ENABLE and MASTER in CTRL, then HISPEED in STATUS, then requests the four lines
to Input, then clears `running`, and responds Ok; while Stopped it responds NotStarted and does nothing else. (The GPIO
requests and the order of the accesses are the spec's own decisions D15, D16, D17, as R105 to R107 state them.) -/
def Obligations.EndCommand : Prop :=
  ∀ s : State,
    (s.params.legal = true → s.ready → s.roomy → s.running = true →
      exec .endBus s = .next { s with
        running := false
        ctrl := s.ctrl &&& ~~~(s.params.EN ||| s.params.MS)
        status := s.status &&& ~~~s.params.HS
        history := s.history ++
          [.cmd 0x0200000000, .regRead .ctrl s.ctrl, .regWrite .ctrl (s.ctrl &&& ~~~(s.params.EN ||| s.params.MS)),
           .regRead .status s.status, .regWrite .status (s.status &&& ~~~s.params.HS),
           .gpio .select .input, .gpio .dataOut .input, .gpio .dataIn .input, .gpio .clock .input, .resp .ok 0] })
    ∧ (s.exec = .idle → s.running = false →
        exec .endBus s = .next { s with history := s.history ++ [.cmd 0x0200000000, .resp .notStarted 0] })

/-- The sentence R108 gives of `end`: after a `begin` from a state whose ENABLE, MASTER and HISPEED were 0, as they are in
every Stopped state of the invariant, `end` restores CTRL and STATUS exactly. -/
def Obligations.EndRestoresWhatBeginFound : Prop :=
  ∀ s : State, s.Inv → s.exec = .idle → s.roomy → s.running = false →
    ∃ t u, exec .beginBus s = .next t ∧ exec .endBus t = .next u
      ∧ u.ctrl = s.ctrl ∧ u.status = s.status ∧ u.running = false

/-- Frame of `begin` and `end`: whenever either answers a next state with no transfer in progress, or a step goes on with
one in a state of the invariant, CTRL outside ENABLE and MASTER, STATUS outside HISPEED, the receive value, the shift engine,
the mark, the configuration and the outside world are unchanged (R30, R34, R100, R105). -/
def Obligations.LifecycleFrame : Prop :=
  ∀ (i : Instr) (s t : State), i = .beginBus ∨ i = .endBus →
    (s.shift = .idle ∧ exec i s = .next t) ∨ (s.Inv ∧ continues i s t) →
    t.ctrl &&& ~~~(s.params.EN ||| s.params.MS) = s.ctrl &&& ~~~(s.params.EN ||| s.params.MS)
      ∧ t.status &&& ~~~s.params.HS = s.status &&& ~~~s.params.HS
      ∧ t.rx = s.rx ∧ t.shift = s.shift ∧ t.mark = s.mark ∧ t.params = s.params
      ∧ t.peer = s.peer ∧ t.engine = s.engine ∧ t.choice = s.choice ∧ t.host = s.host ∧ t.pace = s.pace

/-- Only `begin` and `end` write `running`, ENABLE, MASTER and HISPEED: no other command changes any of the four, neither
where it is executed nor in a step that goes on with it in a state of the invariant (R21, R28, R29, R33). -/
def Obligations.OnlyLifecycleCommandsWriteGateBits : Prop :=
  ∀ (i : Instr) (s t : State), i ≠ .beginBus → i ≠ .endBus →
    (s.params.legal = true ∧ exec i s = .next t) ∨ (s.Inv ∧ continues i s t) →
    t.running = s.running ∧ t.enable = s.enable ∧ t.master = s.master ∧ t.hispeed = s.hispeed

/-! ## The configuration commands -/

/-- R150: `setClockDivider d` while Running reads CTRL, writes it with bits [1:0] replaced by `d & 0b11`, and responds Ok;
while Stopped it responds NotStarted and does nothing else. -/
def Obligations.SetClockDividerCommand : Prop :=
  ∀ (d : Byte) (s : State),
    (s.ready → s.roomy → s.running = true →
      exec (.setClockDivider d) s = .next { s with
        ctrl := (s.ctrl &&& ~~~0x03#8) ||| (d &&& 0x03#8)
        history := s.history ++
          [.cmd (0x0600000000 ||| d.setWidth 40), .regRead .ctrl s.ctrl,
           .regWrite .ctrl ((s.ctrl &&& ~~~0x03#8) ||| (d &&& 0x03#8)), .resp .ok 0] })
    ∧ (s.exec = .idle → s.running = false →
        exec (.setClockDivider d) s
          = .next { s with history := s.history ++ [.cmd (0x0600000000 ||| d.setWidth 40), .resp .notStarted 0] })

/-- R155: `setDataMode m` while Running reads CTRL, writes it with bits [3:2] replaced by `m & 0b11`, and responds Ok; while
Stopped it responds NotStarted and does nothing else. -/
def Obligations.SetDataModeCommand : Prop :=
  ∀ (m : Byte) (s : State),
    (s.ready → s.roomy → s.running = true →
      exec (.setDataMode m) s = .next { s with
        ctrl := (s.ctrl &&& ~~~0x0C#8) ||| ((m &&& 0x03#8) <<< 2)
        history := s.history ++
          [.cmd (0x0700000000 ||| m.setWidth 40), .regRead .ctrl s.ctrl,
           .regWrite .ctrl ((s.ctrl &&& ~~~0x0C#8) ||| ((m &&& 0x03#8) <<< 2)), .resp .ok 0] })
    ∧ (s.exec = .idle → s.running = false →
        exec (.setDataMode m) s
          = .next { s with history := s.history ++ [.cmd (0x0700000000 ||| m.setWidth 40), .resp .notStarted 0] })

/-- After a successful setter the field holds the argument's low two bits and every other bit of CTRL is as before: the
sentences R151 and R156 derive. -/
def Obligations.SetterReplacesOnlyItsField : Prop :=
  ∀ (v : Byte) (s : State), s.ready → s.roomy → s.running = true →
    (∃ t, exec (.setClockDivider v) s = .next t ∧ t.clkRate = v.extractLsb' 0 2
        ∧ t.ctrl.extractLsb' 2 6 = s.ctrl.extractLsb' 2 6)
      ∧ ∃ t, exec (.setDataMode v) s = .next t ∧ t.mode = v.extractLsb' 0 2
          ∧ t.cpha = v.getLsbD 0 ∧ t.cpol = v.getLsbD 1
          ∧ t.clkRate = s.clkRate ∧ t.ctrl.extractLsb' 4 4 = s.ctrl.extractLsb' 4 4

/-- Frame of the setters: whenever one answers a next state with no transfer in progress, or a step goes on with one in a
state of the invariant, CTRL outside its field, STATUS, `running`, the receive value, the shift engine, the mark, the
configuration and the outside world are unchanged (R150, R155). -/
def Obligations.ConfigurationFrame : Prop :=
  ∀ (i : Instr) (v : Byte) (s t : State), i = .setClockDivider v ∨ i = .setDataMode v →
    (s.shift = .idle ∧ exec i s = .next t) ∨ (s.Inv ∧ continues i s t) →
    t.ctrl &&& ~~~(if i = .setClockDivider v then 0x03#8 else 0x0C#8)
        = s.ctrl &&& ~~~(if i = .setClockDivider v then 0x03#8 else 0x0C#8)
      ∧ t.status = s.status ∧ t.running = s.running ∧ t.rx = s.rx ∧ t.shift = s.shift ∧ t.mark = s.mark
      ∧ t.params = s.params ∧ t.peer = s.peer ∧ t.engine = s.engine ∧ t.choice = s.choice ∧ t.host = s.host
      ∧ t.pace = s.pace

/-! ## The transfer commands -/

/-- R121, R128: where the exchange completes, however many polls it takes, `transferByte b` ends with the state of one
exchange of `b` and responds Ok with the received byte zero-extended. -/
def Obligations.TransferByteExchangesOneByte : Prop :=
  ∀ (b : Byte) (s : State), s.ready → s.roomy → s.answers 1 →
    exec (.transferByte b) s
      = .next (respond .ok ((received b (issued (.transferByte b) s)).setWidth 32) (exchange b (issued (.transferByte b) s)))

/-- R130: where both exchanges complete, `transferWord w` exchanges `w[15:8]` and then `w[7:0]`, and responds Ok with the
first received byte as the high byte and the second as the low byte. -/
def Obligations.TransferWordSendsHighByteFirst : Prop :=
  ∀ (w : Half) (s : State), s.ready → s.roomy → s.answers 2 →
    let hi : Byte := w.extractLsb' 8 8
    let lo : Byte := w.extractLsb' 0 8
    let s0 := issued (.transferWord w) s
    let s1 := exchange hi s0
    exec (.transferWord w) s
      = .next (respond .ok ((received hi s0 ++ received lo s1 : Half).setWidth 32) (exchange lo s1))

/-- R140, R145: where all four exchanges complete, `transferDWord d` exchanges the bytes of `d` at the indices of
`DWORD_ORDER` in that order, and responds Ok with each received byte at the index its sent byte was taken from. -/
def Obligations.TransferDWordFollowsDwordOrder : Prop :=
  ∀ (d : Operand) (s : State), s.ready → s.roomy → s.answers 4 →
    let p := s.params.dwordOrder
    let b (k : Fin 4) : Byte := (d >>> (8 * p[k].val)).setWidth 8
    let place (r : Byte) (k : Fin 4) : Operand := r.setWidth 32 <<< (8 * p[k].val)
    let s0 := issued (.transferDWord d) s
    let s1 := exchange (b 0) s0
    let s2 := exchange (b 1) s1
    let s3 := exchange (b 2) s2
    exec (.transferDWord d) s
      = .next (respond .ok
          (place (received (b 0) s0) 0 ||| place (received (b 1) s1) 1 ||| place (received (b 2) s2) 2
            ||| place (received (b 3) s3) 3)
          (exchange (b 3) s3))

/-- R59: in a Running state of the invariant, under `PeerResponsive`, every transfer command returns: some number of steps
after its issue `exec` and the shift engine are Idle, COMPLETE is 1, and the last event is a response Ok. Where completions
are left open, `PeerResponsive` is weak fairness and no bound on the polls is assumed. -/
def Obligations.ResponsivePeerLetsTransfersReturn : Prop :=
  ∀ (i : Instr) (s : State), isTransfer i = true → s.Inv → s.exec = .idle → s.running = true → s.mark = none →
    s.hostWaits → s.peerResponsive → ∃ v, returnsOk i v s

/-- Under the loop-back peer and `PeerResponsive`, in a Running state of the invariant, every transfer returns the value
sent, `transferDWord` for every legal `DWORD_ORDER`: the sentences R125, R132 and R143 derive. -/
def Obligations.LoopBackReturnsTheValueSent : Prop :=
  ∀ s : State, s.Inv → s.exec = .idle → s.running = true → s.mark = none → s.hostWaits → s.peerResponsive →
    s.peer = .loopBack →
    (∀ b : Byte, returnsOk (.transferByte b) (b.setWidth 32) s)
      ∧ (∀ w : Half, returnsOk (.transferWord w) (w.setWidth 32) s)
      ∧ (∀ d : Operand, returnsOk (.transferDWord d) d s)

/-- The scripted peer of R58 through the transfers: where the exchanges complete, a transfer returns the next bytes of the
peer's list, counted by the transfers completed since reset, each at the place of the byte it came in for (R121, R130, R140,
R145). -/
def Obligations.ScriptedPeerFillsTheResponse : Prop :=
  ∀ (s : State) (bytes : List Byte), s.ready → s.roomy → s.peer = .scripted bytes →
    let n := wireCount s.history
    let place (r : Byte) (k : Fin 4) : Operand := r.setWidth 32 <<< (8 * s.params.dwordOrder[k].val)
    (∀ b r0 : Byte, s.answers 1 → bytes[n]? = some r0 →
        ∃ t, exec (.transferByte b) s = .next t ∧ t.history.getLast? = some (.resp .ok (r0.setWidth 32)))
      ∧ (∀ (w : Half) (r0 r1 : Byte), s.answers 2 → bytes[n]? = some r0 → bytes[n + 1]? = some r1 →
          ∃ t, exec (.transferWord w) s = .next t
            ∧ t.history.getLast? = some (.resp .ok ((r0 ++ r1 : Half).setWidth 32)))
      ∧ ∀ (d : Operand) (r0 r1 r2 r3 : Byte), s.answers 4 → bytes[n]? = some r0 → bytes[n + 1]? = some r1 →
          bytes[n + 2]? = some r2 → bytes[n + 3]? = some r3 →
          ∃ t, exec (.transferDWord d) s = .next t
            ∧ t.history.getLast? = some (.resp .ok (place r0 0 ||| place r1 1 ||| place r2 2 ||| place r3 3))

/-- R122, R177, R130, R140: where exactly `k` exchanges of a transfer complete and nothing says that one more will, the
command waits at the poll of wire position `k`: the first `k` exchanges are done, byte `k` was written to DATA, which cleared
COMPLETE, every poll so far read COMPLETE = 0, and there is no response. The grain at which a step shows this is the model's
choice (log 7). -/
def Obligations.UnansweredTransferWaitsAtItsPoll : Prop :=
  ∀ (i : Instr) (s : State) (k : Nat), isTransfer i = true → s.ready → s.roomy → k ≤ (lastPosition i).val →
    s.stallsAfter k →
    let s0 := issued i s
    let u := exchanges i k s0
    let b := byteToSend s.params i (Fin.ofNat 4 k)
    ∃ loc t, loc.k = Fin.ofNat 4 k ∧ loc.acc = gathered i k s0
      ∧ exec i s = .next t ∧ t.complete = false
      ∧ t = { u with
          exec := .busy i 1 loc
          shift := .busy b s.liveNow
          status := s.statusCleared
          engine := { s.engine with script := [] }
          history := u.history ++ [.regWrite .data b]
            ++ List.replicate u.engine.script.length (.regRead .status s.statusCleared) }

/-- A transfer command at a poll whose exchange never completes polls for ever (R177, R122): for every number of steps there
is a next state, neither fault nor refusal, still at the same poll, and nothing has changed but the reads of STATUS and the
local `s`, the value last polled. That each step is one poll, so that n steps make n reads, is the model's choice (log 7). -/
def Obligations.UnansweredPollNeverEnds : Prop :=
  ∀ (s : State) (cmd : Instr) (mpc : Nat) (loc : Locals), s.exec = .busy cmd mpc loc → atPoll s = true →
    neverCompletes s = true → s.complete = false → s.mark = none → s.hostWaits →
    ∀ n : Nat, Host.Core.run Sys2Proof.core n s
      = .next { s with
          exec := .busy cmd mpc { loc with s := if n = 0 then loc.s else s.status }
          history := s.history ++ List.replicate n (.regRead .status s.status) }

/-- At a poll whose completion the schedule leaves open, `Config.completes` decides (log 3). Where it does not complete the
transfer, a step polls once more and changes nothing else but the free opportunity used up. Where it does, the step begins
with the completion step and the poll that sees it, which give `u`: the received byte in `rx`, COMPLETE 1, the shift engine
Idle. From `u` the step goes on, always to a next state. At the last wire position it reads DATA and responds Ok with the
bytes received (R128). Before, it reads DATA, writes the next byte, and ends at that byte's poll unless the schedule
completes it for certain. That such a poll is a step of its own is the model's choice (log 7), as is the pace, which
must have room for the two micro-steps that follow. The rules are R57, R59, R122 and R124. -/
def Obligations.OpenPollIsRepeatedOrCompletes : Prop :=
  ∀ (s : State) (cmd : Instr) (loc : Locals) (tx : Byte) (live : Bool), isTransfer cmd = true →
    s.exec = .busy cmd 1 loc → s.shift = .busy tx live → s.engine.script = [] → s.engine.afterScript live = .free →
    s.complete = false → s.mark = none → s.hostWaits →
    let counted : Schedule := { s.engine with opportunity := s.engine.opportunity + 1 }
    let r := peerAnswer s.peer s.history tx s.choice
    let acc := accumulate s.params cmd loc.k loc.acc r
    let b := byteToSend s.params cmd (loc.k + 1)
    let u : State := { s with
      exec := .busy cmd 2 { loc with s := s.statusCompleted }
      shift := .idle
      status := s.statusCompleted
      rx := some r
      choice := s.choice + 1
      engine := counted
      history := s.history ++ [.wire tx r live, .regRead .status s.statusCompleted] }
    if Config.completes live s.engine.opportunity = true then
      step s = settleStep u
        ∧ (∃ t, step s = .next t ∧ u.history <+: t.history)
        ∧ (2 ≤ s.pace → lastPosition cmd ≤ loc.k →
            step s = .next { u with exec := .idle, history := u.history ++ [.regRead .data r, .resp .ok acc] })
        ∧ (2 ≤ s.pace → loc.k < lastPosition cmd → s.engine.afterScript s.liveNow ≠ .completes →
            step s = .next { u with
              exec := .busy cmd 1 { loc with s := s.statusCompleted, k := loc.k + 1, acc := acc }
              shift := .busy b s.liveNow
              status := s.statusCleared
              history := u.history ++ [.regRead .data r, .regWrite .data b] })
    else
      step s = .next { s with
        exec := .busy cmd 1 { loc with s := s.status }
        history := s.history ++ [.regRead .status s.status]
        engine := counted }

/-- R120: no transfer command reads or writes `running`: with the flag at any other value it does the same, where it is
executed and in every step that goes on with it. -/
def Obligations.TransfersDoNotReadOrWriteRunning : Prop :=
  ∀ (i : Instr) (r : Bool) (s : State), isTransfer i = true →
    exec i { s with running := r } = mapNext (fun t => { t with running := r }) (exec i s)
      ∧ (∀ mpc loc, s.exec = .busy i mpc loc →
          step { s with running := r } = mapNext (fun t => { t with running := r }) (step s))
      ∧ ∀ t, exec i s = .next t ∨ continues i s t → t.running = s.running

/-- No transfer result depends on CLK_RATE or MODE (R158): with Control [3:0] at any other value a transfer does the same,
where it is executed and in every step that goes on with it. -/
def Obligations.TransfersDoNotReadClockOrMode : Prop :=
  ∀ (i : Instr) (v : Byte) (s : State), isTransfer i = true → s.params.legal = true →
    v.extractLsb' 4 4 = s.ctrl.extractLsb' 4 4 →
    exec i { s with ctrl := v } = mapNext (fun t => { t with ctrl := v }) (exec i s)
      ∧ ∀ mpc loc, s.exec = .busy i mpc loc →
          step { s with ctrl := v } = mapNext (fun t => { t with ctrl := v }) (step s)

/-- Frame of the transfers: whenever one answers a next state, or a step goes on with one past a poll, `running`, CTRL,
STATUS outside COMPLETE, the mark, the configuration, the host's moves and the pace are unchanged (R121, R120). -/
def Obligations.TransferFrame : Prop :=
  ∀ (i : Instr) (s t : State), isTransfer i = true → exec i s = .next t ∨ continues i s t →
    t.running = s.running ∧ t.ctrl = s.ctrl ∧ t.status &&& ~~~s.params.CF = s.status &&& ~~~s.params.CF
      ∧ t.mark = s.mark ∧ t.params = s.params ∧ t.peer = s.peer ∧ t.host = s.host ∧ t.pace = s.pace
      ∧ t.engine.live = s.engine.live ∧ t.engine.dead = s.engine.dead
end

