-- ==== Sys2Proof/Laws/Bits.lean ====
section
/-! SUPPORT. Lemmas about single bits of a byte: the flags of CTRL and STATUS as bits, and what the masks of R11 do to
them. -/

namespace Sys2Proof

theorem getLsbD_bitMask (i : Fin 8) (j : Nat) : (bitMask i).getLsbD j = decide (j = i.val) := by
  have hi := i.isLt
  simp only [bitMask, BitVec.getLsbD_shiftLeft, BitVec.getLsbD_one]
  by_cases h : j = i.val
  · subst h; simp [hi]
  · simp only [h, decide_false]
    by_cases hlt : j < i.val
    · simp [hlt]
    · have h0 : j - i.val ≠ 0 := by omega
      simp [h0]

theorem byte_ext {v w : Byte} (h : ∀ j, j < 8 → v.getLsbD j = w.getLsbD j) : v = w :=
  BitVec.eq_of_getLsbD_eq fun j hj => h j hj

/-- A byte masked by one bit is nonzero exactly when that bit is 1. -/
theorem decide_and_bitMask (v : Byte) (i : Fin 8) : decide (v &&& bitMask i ≠ 0) = v.getLsbD i.val := by
  have hbit : (v &&& bitMask i).getLsbD i.val = v.getLsbD i.val := by simp [getLsbD_bitMask]
  cases hv : v.getLsbD i.val with
  | false =>
    have h0 : v &&& bitMask i = 0 := byte_ext fun j hj => by
      rw [BitVec.getLsbD_and, getLsbD_bitMask]
      by_cases hji : j = i.val
      · rw [hji, hv, Bool.false_and]; exact BitVec.getLsbD_zero.symm
      · rw [decide_eq_false hji, Bool.and_false]; exact BitVec.getLsbD_zero.symm
    simp only [h0, ne_eq, not_true_eq_false, decide_false]
  | true =>
    have h1 : v &&& bitMask i ≠ 0 := fun h0 => by
      rw [h0, hv] at hbit
      simp at hbit
    exact decide_eq_true h1

namespace Machine

theorem State.enable_eq (s : State) : s.enable = s.ctrl.getLsbD s.params.enableBit.val := decide_and_bitMask _ _

theorem State.master_eq (s : State) : s.master = s.ctrl.getLsbD s.params.masterBit.val := decide_and_bitMask _ _

theorem State.complete_eq (s : State) : s.complete = s.status.getLsbD s.params.completeBit.val := decide_and_bitMask _ _

theorem State.hispeed_eq (s : State) : s.hispeed = s.status.getLsbD s.params.hispeedBit.val := decide_and_bitMask _ _

end Machine

/-- What R7's legality says, as propositions. -/
theorem Config.Params.legal_iff (p : Config.Params) :
    p.legal = true ↔ 4 ≤ p.enableBit.val ∧ 4 ≤ p.masterBit.val ∧ p.enableBit ≠ p.masterBit
      ∧ p.completeBit ≠ p.hispeedBit ∧ p.dwordOrder.toList.Nodup
      ∧ p.ctrlReset.getLsbD p.enableBit.val = false ∧ p.ctrlReset.getLsbD p.masterBit.val = false
      ∧ p.statusReset.getLsbD p.completeBit.val = false ∧ p.statusReset.getLsbD p.hispeedBit.val = false := by
  simp only [Config.Params.legal, Bool.and_eq_true, decide_eq_true_eq, Bool.not_eq_true', and_assoc]

namespace Machine

/-- `c | EN | MS` sets exactly ENABLE and MASTER. -/
theorem getLsbD_ctrlBegun (p : Config.Params) (c : Byte) (j : Nat) :
    (ctrlBegun p c).getLsbD j = (c.getLsbD j || decide (j = p.enableBit.val) || decide (j = p.masterBit.val)) := by
  simp only [ctrlBegun, Config.Params.EN, Config.Params.MS, BitVec.getLsbD_or, getLsbD_bitMask]

/-- `c & ~(EN | MS)` clears exactly ENABLE and MASTER. -/
theorem getLsbD_ctrlEnded (p : Config.Params) (c : Byte) (j : Nat) :
    (ctrlEnded p c).getLsbD j = (c.getLsbD j && !decide (j = p.enableBit.val) && !decide (j = p.masterBit.val)) := by
  by_cases hj : j < 8
  · simp only [ctrlEnded, Config.Params.EN, Config.Params.MS, BitVec.getLsbD_and, BitVec.getLsbD_not, BitVec.getLsbD_or,
      getLsbD_bitMask, hj, decide_true, Bool.true_and, Bool.not_or, Bool.and_assoc]
  · simp [BitVec.getLsbD_of_ge _ j (Nat.le_of_not_lt hj)]

/-- `s | HS` sets exactly HISPEED. -/
theorem getLsbD_statusBegun (p : Config.Params) (v : Byte) (j : Nat) :
    (statusBegun p v).getLsbD j = (v.getLsbD j || decide (j = p.hispeedBit.val)) := by
  simp only [statusBegun, Config.Params.HS, BitVec.getLsbD_or, getLsbD_bitMask]

/-- `s & ~HS` clears exactly HISPEED. -/
theorem getLsbD_statusEnded (p : Config.Params) (v : Byte) (j : Nat) :
    (statusEnded p v).getLsbD j = (v.getLsbD j && !decide (j = p.hispeedBit.val)) := by
  by_cases hj : j < 8
  · simp only [statusEnded, Config.Params.HS, BitVec.getLsbD_and, BitVec.getLsbD_not, getLsbD_bitMask, hj, decide_true,
      Bool.true_and]
  · simp [BitVec.getLsbD_of_ge _ j (Nat.le_of_not_lt hj)]

/-- A write of STATUS keeps COMPLETE and stores every other bit (R54). -/
theorem getLsbD_statusWritten (s : State) (v : Byte) (j : Nat) :
    (s.statusWritten v).getLsbD j = if j = s.params.completeBit.val then s.status.getLsbD j else v.getLsbD j := by
  by_cases hj : j < 8
  · simp only [State.statusWritten, Config.Params.CF, BitVec.getLsbD_or, BitVec.getLsbD_and, BitVec.getLsbD_not,
      getLsbD_bitMask, hj, decide_true, Bool.true_and]
    split <;> rename_i h
    · rw [decide_eq_true h, Bool.not_true, Bool.and_false, Bool.and_true, Bool.false_or]
    · rw [decide_eq_false h, Bool.not_false, Bool.and_true, Bool.and_false, Bool.or_false]
  · simp [BitVec.getLsbD_of_ge _ j (Nat.le_of_not_lt hj)]

/-- `STATUS & ~CF` clears exactly COMPLETE (R55). -/
theorem getLsbD_statusCleared (s : State) (j : Nat) :
    s.statusCleared.getLsbD j = (s.status.getLsbD j && !decide (j = s.params.completeBit.val)) := by
  by_cases hj : j < 8
  · simp only [State.statusCleared, Config.Params.CF, BitVec.getLsbD_and, BitVec.getLsbD_not, getLsbD_bitMask, hj,
      decide_true, Bool.true_and]
  · simp [BitVec.getLsbD_of_ge _ j (Nat.le_of_not_lt hj)]

/-- `STATUS | CF` sets exactly COMPLETE (R57). -/
theorem getLsbD_statusCompleted (s : State) (j : Nat) :
    s.statusCompleted.getLsbD j = (s.status.getLsbD j || decide (j = s.params.completeBit.val)) := by
  simp only [State.statusCompleted, Config.Params.CF, BitVec.getLsbD_or, getLsbD_bitMask]

/-- `setClockDivider` replaces exactly bits [1:0] (R150). -/
theorem getLsbD_ctrlWithClock (c d : Byte) (j : Nat) :
    (ctrlWithClock c d).getLsbD j = if j < 2 then d.getLsbD j else c.getLsbD j := by
  by_cases hj : j < 8
  · simp only [ctrlWithClock, CLK_MASK, BitVec.getLsbD_or, BitVec.getLsbD_and, BitVec.getLsbD_not]
    interval_cases j <;> simp
  · simp [BitVec.getLsbD_of_ge _ j (Nat.le_of_not_lt hj)]

/-- `setDataMode` replaces exactly bits [3:2] (R155). -/
theorem getLsbD_ctrlWithMode (c m : Byte) (j : Nat) :
    (ctrlWithMode c m).getLsbD j = if 2 ≤ j ∧ j < 4 then m.getLsbD (j - 2) else c.getLsbD j := by
  by_cases hj : j < 8
  · simp only [ctrlWithMode, MODE_MASK, BitVec.getLsbD_or, BitVec.getLsbD_and, BitVec.getLsbD_not,
      BitVec.getLsbD_shiftLeft]
    interval_cases j <;> simp
  · rw [BitVec.getLsbD_of_ge _ j (Nat.le_of_not_lt hj), BitVec.getLsbD_of_ge c j (Nat.le_of_not_lt hj)]
    rw [if_neg (by omega)]

/-- With legal parameters the four gate and flag bits of a register stand at distinct positions (R7). -/
theorem legal_positions {p : Config.Params} (h : p.legal = true) :
    p.enableBit.val ≠ p.masterBit.val ∧ p.completeBit.val ≠ p.hispeedBit.val ∧ p.hispeedBit.val ≠ p.completeBit.val := by
  have hx := (Config.Params.legal_iff _).1 h
  exact ⟨fun e => hx.2.2.1 (Fin.ext e), fun e => hx.2.2.2.1 (Fin.ext e), fun e => hx.2.2.2.1 (Fin.ext e.symm)⟩

/-- The write of STATUS by `begin` stores what it writes: COMPLETE is written back as it was read (R54, R100). -/
theorem statusWritten_begun {s : State} (h : s.params.legal = true) :
    s.statusWritten (statusBegun s.params s.status) = statusBegun s.params s.status :=
  byte_ext fun j _ => by
    rw [getLsbD_statusWritten]
    split
    · rename_i hj
      rw [getLsbD_statusBegun, hj, decide_eq_false (legal_positions h).2.1, Bool.or_false]
    · rfl

/-- The write of STATUS by `end` stores what it writes (R54, R105). -/
theorem statusWritten_ended {s : State} (h : s.params.legal = true) :
    s.statusWritten (statusEnded s.params s.status) = statusEnded s.params s.status :=
  byte_ext fun j _ => by
    rw [getLsbD_statusWritten]
    split
    · rename_i hj
      rw [getLsbD_statusEnded, hj, decide_eq_false (legal_positions h).2.1, Bool.not_false, Bool.and_true]
    · rfl

/-- Clearing COMPLETE leaves the other bits of STATUS (R55). -/
theorem statusCleared_outside (s : State) : s.statusCleared &&& ~~~s.params.CF = s.status &&& ~~~s.params.CF := by
  simp [State.statusCleared, BitVec.and_assoc]

/-- Setting COMPLETE leaves the other bits of STATUS (R57). -/
theorem statusCompleted_outside (s : State) : s.statusCompleted &&& ~~~s.params.CF = s.status &&& ~~~s.params.CF := by
  ext j
  simp only [State.statusCompleted, BitVec.getElem_and, BitVec.getElem_or, BitVec.getElem_not]
  cases s.params.CF[j] <;> simp

/-- COMPLETE set after it was cleared is COMPLETE set. -/
theorem statusCompleted_of_cleared (s : State) : (s.statusCleared ||| s.params.CF) = s.statusCompleted := by
  ext j
  simp only [State.statusCleared, State.statusCompleted, BitVec.getElem_and, BitVec.getElem_or, BitVec.getElem_not]
  cases s.params.CF[j] <;> simp

/-- A poll sees COMPLETE once it is set (R128). -/
theorem statusCompleted_and (s : State) : s.statusCompleted &&& s.params.CF ≠ 0 := by
  have h := decide_and_bitMask s.statusCompleted s.params.completeBit
  rw [getLsbD_statusCompleted] at h
  simpa [Config.Params.CF] using h

/-- A poll does not see COMPLETE while it is clear (R128). -/
theorem statusCleared_and (s : State) : s.statusCleared &&& s.params.CF = 0 := by
  have h := decide_and_bitMask s.statusCleared s.params.completeBit
  rw [getLsbD_statusCleared] at h
  simpa [Config.Params.CF] using h

end Machine

end Sys2Proof
end

