-- ==== Sys2Proof/Laws/State.lean ====
section
/-! SUPPORT. One lemma per field per update of State, so that no later proof unfolds a record update. -/

namespace Sys2Proof.Machine

@[simp] theorem record_running (s : State) (e : Event) : (s.record e).running = s.running := rfl
@[simp] theorem record_ctrl (s : State) (e : Event) : (s.record e).ctrl = s.ctrl := rfl
@[simp] theorem record_status (s : State) (e : Event) : (s.record e).status = s.status := rfl
@[simp] theorem record_rx (s : State) (e : Event) : (s.record e).rx = s.rx := rfl
@[simp] theorem record_shift (s : State) (e : Event) : (s.record e).shift = s.shift := rfl
@[simp] theorem record_exec (s : State) (e : Event) : (s.record e).exec = s.exec := rfl
@[simp] theorem record_history (s : State) (e : Event) : (s.record e).history = s.history ++ [e] := rfl
@[simp] theorem record_mark (s : State) (e : Event) : (s.record e).mark = s.mark := rfl
@[simp] theorem record_params (s : State) (e : Event) : (s.record e).params = s.params := rfl
@[simp] theorem record_peer (s : State) (e : Event) : (s.record e).peer = s.peer := rfl
@[simp] theorem record_engine (s : State) (e : Event) : (s.record e).engine = s.engine := rfl
@[simp] theorem record_choice (s : State) (e : Event) : (s.record e).choice = s.choice := rfl
@[simp] theorem record_host (s : State) (e : Event) : (s.record e).host = s.host := rfl
@[simp] theorem record_pace (s : State) (e : Event) : (s.record e).pace = s.pace := rfl

@[simp] theorem respond_running (st : Status) (v : Operand) (s : State) : (respond st v s).running = s.running := rfl
@[simp] theorem respond_ctrl (st : Status) (v : Operand) (s : State) : (respond st v s).ctrl = s.ctrl := rfl
@[simp] theorem respond_status (st : Status) (v : Operand) (s : State) : (respond st v s).status = s.status := rfl
@[simp] theorem respond_rx (st : Status) (v : Operand) (s : State) : (respond st v s).rx = s.rx := rfl
@[simp] theorem respond_shift (st : Status) (v : Operand) (s : State) : (respond st v s).shift = s.shift := rfl
@[simp] theorem respond_exec (st : Status) (v : Operand) (s : State) : (respond st v s).exec = .idle := rfl
@[simp] theorem respond_history (st : Status) (v : Operand) (s : State) : (respond st v s).history = s.history ++ [.resp st v] := rfl
@[simp] theorem respond_mark (st : Status) (v : Operand) (s : State) : (respond st v s).mark = s.mark := rfl
@[simp] theorem respond_params (st : Status) (v : Operand) (s : State) : (respond st v s).params = s.params := rfl
@[simp] theorem respond_peer (st : Status) (v : Operand) (s : State) : (respond st v s).peer = s.peer := rfl
@[simp] theorem respond_engine (st : Status) (v : Operand) (s : State) : (respond st v s).engine = s.engine := rfl
@[simp] theorem respond_choice (st : Status) (v : Operand) (s : State) : (respond st v s).choice = s.choice := rfl
@[simp] theorem respond_host (st : Status) (v : Operand) (s : State) : (respond st v s).host = s.host := rfl
@[simp] theorem respond_pace (st : Status) (v : Operand) (s : State) : (respond st v s).pace = s.pace := rfl

@[simp] theorem issued_running (cmd : Instr) (s : State) : (issued cmd s).running = s.running := rfl
@[simp] theorem issued_ctrl (cmd : Instr) (s : State) : (issued cmd s).ctrl = s.ctrl := rfl
@[simp] theorem issued_status (cmd : Instr) (s : State) : (issued cmd s).status = s.status := rfl
@[simp] theorem issued_rx (cmd : Instr) (s : State) : (issued cmd s).rx = s.rx := rfl
@[simp] theorem issued_shift (cmd : Instr) (s : State) : (issued cmd s).shift = s.shift := rfl
@[simp] theorem issued_exec (cmd : Instr) (s : State) : (issued cmd s).exec = .busy cmd 0 Locals.start := rfl
@[simp] theorem issued_history (cmd : Instr) (s : State) : (issued cmd s).history = s.history ++ [.cmd (encode cmd)] := rfl
@[simp] theorem issued_mark (cmd : Instr) (s : State) : (issued cmd s).mark = s.mark := rfl
@[simp] theorem issued_params (cmd : Instr) (s : State) : (issued cmd s).params = s.params := rfl
@[simp] theorem issued_peer (cmd : Instr) (s : State) : (issued cmd s).peer = s.peer := rfl
@[simp] theorem issued_engine (cmd : Instr) (s : State) : (issued cmd s).engine = s.engine := rfl
@[simp] theorem issued_choice (cmd : Instr) (s : State) : (issued cmd s).choice = s.choice := rfl
@[simp] theorem issued_host (cmd : Instr) (s : State) : (issued cmd s).host = s.host := rfl
@[simp] theorem issued_pace (cmd : Instr) (s : State) : (issued cmd s).pace = s.pace := rfl

@[simp] theorem moveTo_running (s : State) (cmd : Instr) (mpc : Nat) (loc : Locals) : (s.moveTo cmd mpc loc).running = s.running := rfl
@[simp] theorem moveTo_ctrl (s : State) (cmd : Instr) (mpc : Nat) (loc : Locals) : (s.moveTo cmd mpc loc).ctrl = s.ctrl := rfl
@[simp] theorem moveTo_status (s : State) (cmd : Instr) (mpc : Nat) (loc : Locals) : (s.moveTo cmd mpc loc).status = s.status := rfl
@[simp] theorem moveTo_rx (s : State) (cmd : Instr) (mpc : Nat) (loc : Locals) : (s.moveTo cmd mpc loc).rx = s.rx := rfl
@[simp] theorem moveTo_shift (s : State) (cmd : Instr) (mpc : Nat) (loc : Locals) : (s.moveTo cmd mpc loc).shift = s.shift := rfl
@[simp] theorem moveTo_exec (s : State) (cmd : Instr) (mpc : Nat) (loc : Locals) : (s.moveTo cmd mpc loc).exec = .busy cmd mpc loc := rfl
@[simp] theorem moveTo_history (s : State) (cmd : Instr) (mpc : Nat) (loc : Locals) : (s.moveTo cmd mpc loc).history = s.history := rfl
@[simp] theorem moveTo_mark (s : State) (cmd : Instr) (mpc : Nat) (loc : Locals) : (s.moveTo cmd mpc loc).mark = s.mark := rfl
@[simp] theorem moveTo_params (s : State) (cmd : Instr) (mpc : Nat) (loc : Locals) : (s.moveTo cmd mpc loc).params = s.params := rfl
@[simp] theorem moveTo_peer (s : State) (cmd : Instr) (mpc : Nat) (loc : Locals) : (s.moveTo cmd mpc loc).peer = s.peer := rfl
@[simp] theorem moveTo_engine (s : State) (cmd : Instr) (mpc : Nat) (loc : Locals) : (s.moveTo cmd mpc loc).engine = s.engine := rfl
@[simp] theorem moveTo_choice (s : State) (cmd : Instr) (mpc : Nat) (loc : Locals) : (s.moveTo cmd mpc loc).choice = s.choice := rfl
@[simp] theorem moveTo_host (s : State) (cmd : Instr) (mpc : Nat) (loc : Locals) : (s.moveTo cmd mpc loc).host = s.host := rfl
@[simp] theorem moveTo_pace (s : State) (cmd : Instr) (mpc : Nat) (loc : Locals) : (s.moveTo cmd mpc loc).pace = s.pace := rfl

@[simp] theorem gpioDir_running (line : Line) (dir : Dir) (s : State) : (gpioDir line dir s).running = s.running := rfl
@[simp] theorem gpioDir_ctrl (line : Line) (dir : Dir) (s : State) : (gpioDir line dir s).ctrl = s.ctrl := rfl
@[simp] theorem gpioDir_status (line : Line) (dir : Dir) (s : State) : (gpioDir line dir s).status = s.status := rfl
@[simp] theorem gpioDir_rx (line : Line) (dir : Dir) (s : State) : (gpioDir line dir s).rx = s.rx := rfl
@[simp] theorem gpioDir_shift (line : Line) (dir : Dir) (s : State) : (gpioDir line dir s).shift = s.shift := rfl
@[simp] theorem gpioDir_exec (line : Line) (dir : Dir) (s : State) : (gpioDir line dir s).exec = s.exec := rfl
@[simp] theorem gpioDir_history (line : Line) (dir : Dir) (s : State) : (gpioDir line dir s).history = s.history ++ [.gpio line dir] := rfl
@[simp] theorem gpioDir_mark (line : Line) (dir : Dir) (s : State) : (gpioDir line dir s).mark = s.mark := rfl
@[simp] theorem gpioDir_params (line : Line) (dir : Dir) (s : State) : (gpioDir line dir s).params = s.params := rfl
@[simp] theorem gpioDir_peer (line : Line) (dir : Dir) (s : State) : (gpioDir line dir s).peer = s.peer := rfl
@[simp] theorem gpioDir_engine (line : Line) (dir : Dir) (s : State) : (gpioDir line dir s).engine = s.engine := rfl
@[simp] theorem gpioDir_choice (line : Line) (dir : Dir) (s : State) : (gpioDir line dir s).choice = s.choice := rfl
@[simp] theorem gpioDir_host (line : Line) (dir : Dir) (s : State) : (gpioDir line dir s).host = s.host := rfl
@[simp] theorem gpioDir_pace (line : Line) (dir : Dir) (s : State) : (gpioDir line dir s).pace = s.pace := rfl

@[simp] theorem completeTransfer_running (tx : Byte) (live : Bool) (s : State) : (completeTransfer tx live s).running = s.running := rfl
@[simp] theorem completeTransfer_ctrl (tx : Byte) (live : Bool) (s : State) : (completeTransfer tx live s).ctrl = s.ctrl := rfl
@[simp] theorem completeTransfer_status (tx : Byte) (live : Bool) (s : State) : (completeTransfer tx live s).status = s.statusCompleted := rfl
@[simp] theorem completeTransfer_rx (tx : Byte) (live : Bool) (s : State) : (completeTransfer tx live s).rx = some (peerAnswer s.peer s.history tx s.choice) := rfl
@[simp] theorem completeTransfer_shift (tx : Byte) (live : Bool) (s : State) : (completeTransfer tx live s).shift = .idle := rfl
@[simp] theorem completeTransfer_exec (tx : Byte) (live : Bool) (s : State) : (completeTransfer tx live s).exec = s.exec := rfl
@[simp] theorem completeTransfer_history (tx : Byte) (live : Bool) (s : State) : (completeTransfer tx live s).history = s.history ++ [.wire tx (peerAnswer s.peer s.history tx s.choice) live] := rfl
@[simp] theorem completeTransfer_mark (tx : Byte) (live : Bool) (s : State) : (completeTransfer tx live s).mark = s.mark := rfl
@[simp] theorem completeTransfer_params (tx : Byte) (live : Bool) (s : State) : (completeTransfer tx live s).params = s.params := rfl
@[simp] theorem completeTransfer_peer (tx : Byte) (live : Bool) (s : State) : (completeTransfer tx live s).peer = s.peer := rfl
@[simp] theorem completeTransfer_engine (tx : Byte) (live : Bool) (s : State) : (completeTransfer tx live s).engine = s.engine := rfl
@[simp] theorem completeTransfer_choice (tx : Byte) (live : Bool) (s : State) : (completeTransfer tx live s).choice = s.choice + 1 := rfl
@[simp] theorem completeTransfer_host (tx : Byte) (live : Bool) (s : State) : (completeTransfer tx live s).host = s.host := rfl
@[simp] theorem completeTransfer_pace (tx : Byte) (live : Bool) (s : State) : (completeTransfer tx live s).pace = s.pace := rfl

@[simp] theorem restart_running (s : State) : (restart s).running = false := rfl
@[simp] theorem restart_ctrl (s : State) : (restart s).ctrl = s.params.ctrlReset := rfl
@[simp] theorem restart_status (s : State) : (restart s).status = s.params.statusReset := rfl
@[simp] theorem restart_rx (s : State) : (restart s).rx = none := rfl
@[simp] theorem restart_shift (s : State) : (restart s).shift = .idle := rfl
@[simp] theorem restart_exec (s : State) : (restart s).exec = .idle := rfl
@[simp] theorem restart_history (s : State) : (restart s).history = [] := rfl
@[simp] theorem restart_mark (s : State) : (restart s).mark = none := rfl
@[simp] theorem restart_params (s : State) : (restart s).params = s.params := rfl
@[simp] theorem restart_peer (s : State) : (restart s).peer = s.peer := rfl
@[simp] theorem restart_engine (s : State) : (restart s).engine = s.engine := rfl
@[simp] theorem restart_choice (s : State) : (restart s).choice = s.choice := rfl
@[simp] theorem restart_host (s : State) : (restart s).host = s.host := rfl
@[simp] theorem restart_pace (s : State) : (restart s).pace = s.pace := rfl

@[simp] theorem placeWord_running (w : CommandWord) (s : State) : (placeWord w s).running = s.running := rfl
@[simp] theorem placeWord_ctrl (w : CommandWord) (s : State) : (placeWord w s).ctrl = s.ctrl := rfl
@[simp] theorem placeWord_status (w : CommandWord) (s : State) : (placeWord w s).status = s.status := rfl
@[simp] theorem placeWord_rx (w : CommandWord) (s : State) : (placeWord w s).rx = s.rx := rfl
@[simp] theorem placeWord_shift (w : CommandWord) (s : State) : (placeWord w s).shift = s.shift := rfl
@[simp] theorem placeWord_exec (w : CommandWord) (s : State) : (placeWord w s).exec = s.exec := rfl
@[simp] theorem placeWord_history (w : CommandWord) (s : State) : (placeWord w s).history = s.history := rfl
@[simp] theorem placeWord_mark (w : CommandWord) (s : State) : (placeWord w s).mark = s.mark := rfl
@[simp] theorem placeWord_params (w : CommandWord) (s : State) : (placeWord w s).params = s.params := rfl
@[simp] theorem placeWord_peer (w : CommandWord) (s : State) : (placeWord w s).peer = s.peer := rfl
@[simp] theorem placeWord_engine (w : CommandWord) (s : State) : (placeWord w s).engine = s.engine := rfl
@[simp] theorem placeWord_choice (w : CommandWord) (s : State) : (placeWord w s).choice = s.choice := rfl
@[simp] theorem placeWord_host (w : CommandWord) (s : State) : (placeWord w s).host = .issueAtOnce w :: s.host := rfl
@[simp] theorem placeWord_pace (w : CommandWord) (s : State) : (placeWord w s).pace = s.pace := rfl

end Sys2Proof.Machine
end

