-- ==== Sys2Proof/Laws/Ops.lean ====
section
/-! SUPPORT. One lemma per shared operation: what it answers, or everything it can do. -/

namespace Sys2Proof.Machine

theorem State.isIdle_iff (s : State) : s.isIdle = true ↔ s.exec = .idle := by
  unfold State.isIdle
  cases s.exec <;> simp

theorem State.isIdle_of_idle {s : State} (h : s.exec = .idle) : s.isIdle = true := (s.isIdle_iff).2 h

theorem State.not_isIdle_of_busy {s : State} {cmd : Instr} {mpc : Nat} {loc : Locals} (h : s.exec = .busy cmd mpc loc) :
    s.isIdle = false := by
  unfold State.isIdle
  rw [h]

@[simp] theorem memRead_ctrl (s : State) : memRead .ctrl s = .ok (s.ctrl, s.record (.regRead .ctrl s.ctrl)) := rfl

@[simp] theorem memRead_status (s : State) : memRead .status s = .ok (s.status, s.record (.regRead .status s.status)) := rfl

@[simp] theorem memWrite_ctrl (v : Byte) (s : State) :
    memWrite .ctrl v s = .ok ({ s with ctrl := v }.record (.regWrite .ctrl v)) := rfl

@[simp] theorem memWrite_status (v : Byte) (s : State) :
    memWrite .status v s = .ok ({ s with status := s.statusWritten v }.record (.regWrite .status v)) := rfl

/-- A read of DATA after a transfer is over returns the receive value (R53). -/
theorem memRead_data_of_idle {s : State} {r : Byte} (hs : s.shift = .idle) (hr : s.rx = some r) :
    memRead .data s = .ok (r, s.record (.regRead .data r)) := by
  simp [memRead, readValue, readData, hs, hr]

/-- Everything a read of DATA can do (R53). -/
theorem memRead_data_cases (s : State) :
    (∃ tx live, s.shift = .busy tx live ∧ memRead .data s = .error .dataAccessWhileBusy)
      ∨ (s.shift = .idle ∧ s.rx = none ∧ memRead .data s = .error .unwrittenRead)
      ∨ (∃ r, s.shift = .idle ∧ s.rx = some r ∧ memRead .data s = .ok (r, s.record (.regRead .data r))) := by
  cases hs : s.shift with
  | busy tx live => exact .inl ⟨tx, live, rfl, by simp [memRead, readValue, readData, hs]⟩
  | idle =>
    cases hr : s.rx with
    | none => exact .inr (.inl ⟨rfl, rfl, by simp [memRead, readValue, readData, hs, hr]⟩)
    | some r => exact .inr (.inr ⟨r, rfl, rfl, memRead_data_of_idle hs hr⟩)

/-- A write of DATA with no transfer in progress clears COMPLETE and starts one (R55). -/
theorem memWrite_data_of_idle {s : State} (b : Byte) (hs : s.shift = .idle) :
    memWrite .data b s
      = .ok ({ s with status := s.statusCleared, shift := .busy b s.liveNow }.record (.regWrite .data b)) := by
  simp [memWrite, writeValue, writeData, hs]

/-- Everything a write of DATA can do (R55). -/
theorem memWrite_data_cases (b : Byte) (s : State) :
    (∃ tx live, s.shift = .busy tx live ∧ memWrite .data b s = .error .dataAccessWhileBusy)
      ∨ (s.shift = .idle ∧ memWrite .data b s
          = .ok ({ s with status := s.statusCleared, shift := .busy b s.liveNow }.record (.regWrite .data b))) := by
  cases hs : s.shift with
  | busy tx live => exact .inl ⟨tx, live, rfl, by simp [memWrite, writeValue, writeData, hs]⟩
  | idle => exact .inr ⟨rfl, memWrite_data_of_idle b hs⟩

/-- With no transfer in progress the shift engine does nothing (R56). -/
theorem engineTurn_of_idle {s : State} (h : s.shift = .idle) : engineTurn s = s := by
  unfold engineTurn
  rw [h]

/-- A free opportunity that `Config.completes` takes. -/
theorem freeOpportunity_taken {s : State} {live : Bool} (tx : Byte) (h : Config.completes live s.engine.opportunity = true) :
    freeOpportunity tx live s = completeTransfer tx live { s with engine := s.engine.nextOpportunity } := if_pos h

/-- A free opportunity that `Config.completes` lets pass. -/
theorem freeOpportunity_passed {s : State} {live : Bool} (tx : Byte) (h : ¬ Config.completes live s.engine.opportunity = true) :
    freeOpportunity tx live s = { s with engine := s.engine.nextOpportunity } := if_neg h

/-- The shift engine at an opportunity the schedule leaves open (R57, R59). -/
theorem engineTurn_of_free {s : State} {tx : Byte} {live : Bool} (hs : s.shift = .busy tx live)
    (he : s.engine.script = []) (hf : s.engine.afterScript live = .free) :
    engineTurn s = freeOpportunity tx live s := by
  simp [engineTurn, hs, he, hf]

/-- Everything an opportunity of the shift engine can do: nothing but use up its script entry, or the completion step of
the transfer in progress (R57). -/
theorem engineTurn_cases (s : State) :
    (∃ e, engineTurn s = { s with engine := e } ∧ e.live = s.engine.live ∧ e.dead = s.engine.dead)
      ∨ ∃ tx live e, s.shift = .busy tx live ∧ engineTurn s = completeTransfer tx live { s with engine := e }
          ∧ e.live = s.engine.live ∧ e.dead = s.engine.dead := by
  unfold engineTurn
  split
  · exact .inl ⟨s.engine, rfl, rfl, rfl⟩
  · rename_i tx live hs
    split
    · exact .inr ⟨tx, live, _, hs, rfl, rfl, rfl⟩
    · exact .inl ⟨_, rfl, rfl, rfl⟩
    · split
      · exact .inr ⟨tx, live, s.engine, hs, rfl, rfl, rfl⟩
      · exact .inl ⟨s.engine, rfl, rfl, rfl⟩
      · by_cases hc : Config.completes live s.engine.opportunity = true
        · exact .inr ⟨tx, live, s.engine.nextOpportunity, hs, freeOpportunity_taken tx hc, rfl, rfl⟩
        · exact .inl ⟨s.engine.nextOpportunity, freeOpportunity_passed tx hc, rfl, rfl⟩

/-- The shift engine leaves the controller and everything the host sees but the history alone. -/
theorem engineTurn_keeps (s : State) :
    (engineTurn s).running = s.running ∧ (engineTurn s).ctrl = s.ctrl ∧ (engineTurn s).exec = s.exec
      ∧ (engineTurn s).mark = s.mark ∧ (engineTurn s).params = s.params ∧ (engineTurn s).peer = s.peer
      ∧ (engineTurn s).host = s.host ∧ (engineTurn s).pace = s.pace := by
  rcases engineTurn_cases s with ⟨e, h, -, -⟩ | ⟨tx, live, e, -, h, -, -⟩ <;> rw [h] <;> simp

@[simp] theorem engineTurn_exec (s : State) : (engineTurn s).exec = s.exec := (engineTurn_keeps s).2.2.1

@[simp] theorem engineTurn_pace (s : State) : (engineTurn s).pace = s.pace := (engineTurn_keeps s).2.2.2.2.2.2.2

/-- Everything an issue can do (R80, R176). -/
theorem issue_of_idle {s : State} (cmd : Instr) (k : State → Host.Outcome State Fault Refusal) (h : s.exec = .idle) :
    issue cmd k s = k (issued cmd s) := by
  simp [issue, State.isIdle_of_idle h]

theorem issue_of_busy {s : State} (cmd : Instr) (k : State → Host.Outcome State Fault Refusal) (h : s.exec ≠ .idle) :
    issue cmd k s = .refused .commandWhileBusy := by
  have : s.isIdle = false := by
    cases hi : s.isIdle with
    | false => rfl
    | true => exact absurd ((s.isIdle_iff).1 hi) h
  simp [issue, this]

end Sys2Proof.Machine
end

