-- ==== Sys2Proof/Laws/Controller.lean ====
section
/-! SUPPORT. What a micro-step, a run of micro-steps, a command and a step can do: the inversion lemmas every invariant
and every frame is derived from. -/

namespace Sys2Proof.Machine

/-- Everything a command can do when it answers a next state: its gate fails and it responds, or its micro-steps run. -/
theorem exec_of_idle {s : State} (i : Instr) (h : s.exec = .idle) :
    exec i s = match gateFailure i s.running with
      | some st => .next (respond st 0 (issued i s))
      | none => settleStep (issued i s) := by
  cases i <;> cases hr : s.running <;>
    simp [exec, execBegin, execEnd, execTransferByte, execTransferWord, execTransferDWord, execSetClockDivider,
      execSetDataMode, issue_of_idle _ _ h, gateFailure, hr]

/-- A command issued while another executes is refused (R176). -/
theorem exec_of_busy {s : State} (i : Instr) (h : s.exec ≠ .idle) : exec i s = .refused .commandWhileBusy := by
  cases i <;>
    simp [exec, execBegin, execEnd, execTransferByte, execTransferWord, execTransferDWord, execSetClockDivider,
      execSetDataMode, issue_of_busy _ _ h]

/-- A run of micro-steps keeps what every micro-step of a command in progress keeps. -/
theorem settle_keeps {P : State → Prop} (hP : ∀ s t, s.exec ≠ .idle → P s → tick s = .next t → P t) :
    ∀ (n : Nat) (s t : State), P s → settle n s = .next t → P t
  | 0, s, t, hs, h => by cases h; exact hs
  | n + 1, s, t, hs, h => by
    unfold settle at h
    split at h
    · cases h; exact hs
    · rename_i hr
      have hb : s.exec ≠ .idle := fun hi => hr (by simp [atRest, State.isIdle_of_idle hi])
      cases ht : tick s with
      | next u => rw [ht] at h; exact settle_keeps hP n u t (hP s u hb hs ht) h
      | fault f => rw [ht] at h; cases h
      | refused r => rw [ht] at h; cases h

/-- A run of micro-steps answers a next state if every micro-step of a command in progress does, under an invariant. -/
theorem settle_answers {P : State → Prop} (hP : ∀ s, s.exec ≠ .idle → P s → ∃ t, tick s = .next t ∧ P t) :
    ∀ (n : Nat) (s : State), P s → ∃ t, settle n s = .next t ∧ P t
  | 0, s, hs => ⟨s, rfl, hs⟩
  | n + 1, s, hs => by
    unfold settle
    split
    · exact ⟨s, rfl, hs⟩
    · rename_i hr
      have hb : s.exec ≠ .idle := fun hi => hr (by simp [atRest, State.isIdle_of_idle hi])
      obtain ⟨u, hu, hPu⟩ := hP s hb hs
      rw [hu]
      exact settle_answers hP n u hPu

/-- Everything a command that answers a next state can do: its gate failed and it only responded, or its micro-steps
ran. -/
theorem exec_cases {i : Instr} {s t : State} (h : exec i s = .next t) :
    s.exec = .idle ∧ ((∃ st, gateFailure i s.running = some st ∧ t = respond st 0 (issued i s))
      ∨ (gateFailure i s.running = none ∧ settle s.pace (issued i s) = .next t)) := by
  by_cases hi : s.exec = .idle
  · refine ⟨hi, ?_⟩
    rw [exec_of_idle i hi] at h
    cases hg : gateFailure i s.running with
    | some st => rw [hg] at h; cases h; exact .inl ⟨st, rfl, rfl⟩
    | none => rw [hg] at h; exact .inr ⟨rfl, h⟩
  · rw [exec_of_busy i hi] at h; cases h

/-- Everything a step that answers a next state can do: run the command the host issues, reset the block, go on with the
command in progress, or, with `exec` Idle and nothing to issue, leave all but the shift engine alone. -/
theorem step_cases {s t : State} (h : step s = .next t) :
    s.mark = none ∧
      ((∃ w i rest, (s.host = .issue w :: rest ∨ s.host = .issueAtOnce w :: rest) ∧ decode w = .command i
          ∧ exec i { s with host := rest } = .next t)
        ∨ (∃ rest, s.host = .reset :: rest ∧ s.exec = .idle ∧ t = restart { s with host := rest })
        ∨ (s.exec ≠ .idle ∧ ∃ u, tick s = .next u ∧ settle u.pace u = .next t)
        ∨ (s.exec = .idle ∧ t = engineTurn s)) := by
  have hproceed : ∀ {t}, proceed s = .next t →
      (s.exec ≠ .idle ∧ ∃ u, tick s = .next u ∧ settle u.pace u = .next t) ∨ (s.exec = .idle ∧ t = engineTurn s) := by
    intro t h
    unfold proceed at h
    split at h
    · rename_i hi; cases h; exact .inr ⟨(s.isIdle_iff).1 hi, rfl⟩
    · rename_i hi
      refine .inl ⟨fun he => hi (State.isIdle_of_idle he), ?_⟩
      cases ht : tick s with
      | next u => rw [ht] at h; exact ⟨u, rfl, h⟩
      | fault f => rw [ht] at h; cases h
      | refused r => rw [ht] at h; cases h
  have hpresent : ∀ {w rest t}, present w { s with host := rest } = .next t →
      ∃ i, decode w = .command i ∧ exec i { s with host := rest } = .next t := by
    intro w rest t h
    unfold present at h
    split at h
    · cases hd : decode w with
      | command i => rw [hd] at h; exact ⟨i, rfl, h⟩
      | illegalCommand e => rw [hd] at h; cases h
    · cases h
  unfold step turn at h
  have hm : s.mark = none := by
    cases hm : s.mark with
    | none => rfl
    | some m => rw [hm] at h; cases m <;> cases h
  rw [hm] at h
  refine ⟨hm, ?_⟩
  dsimp only at h
  unfold hostTurn at h
  cases hh : s.host with
  | nil => rw [hh] at h; exact .inr (.inr (hproceed h))
  | cons mv rest =>
    rw [hh] at h
    cases mv with
    | issue w =>
      dsimp only at h
      split at h
      · obtain ⟨i, hd, he⟩ := hpresent h
        exact .inl ⟨w, i, rest, .inl rfl, hd, he⟩
      · exact .inr (.inr (hproceed h))
    | issueAtOnce w =>
      obtain ⟨i, hd, he⟩ := hpresent h
      exact .inl ⟨w, i, rest, .inr rfl, hd, he⟩
    | reset =>
      dsimp only at h
      split at h
      · rename_i hi; cases h; exact .inr (.inl ⟨rest, rfl, (s.isIdle_iff).1 hi, rfl⟩)
      · exact .inr (.inr (hproceed h))

/-- A step with a command in progress and no word issued at once is one micro-step and the run after it. -/
theorem step_of_busy {s : State} (hb : s.exec ≠ .idle) (hm : s.mark = none) (hw : s.hostWaits) :
    step s = match tick s with
      | .next t => settleStep t
      | .fault f => .fault f
      | .refused r => .refused r := by
  have hi : s.isIdle = false := by
    cases h : s.isIdle with
    | false => rfl
    | true => exact absurd ((s.isIdle_iff).1 h) hb
  have hp : step s = proceed s := by
    simp only [step, turn, hm, hostTurn]
    split
    · rfl
    · simp [hi]
    · rename_i h; exact absurd h (hw _ _)
    · simp [hi]
  rw [hp, proceed, hi]
  rfl

/-- Everything a step that goes on with a command can do: one micro-step, and the run after it. -/
theorem continues_cases {i : Instr} {s t : State} (h : continues i s t) :
    s.mark = none ∧ s.exec ≠ .idle ∧ ∃ u, tick s = .next u ∧ settle u.pace u = .next t := by
  obtain ⟨⟨mpc, loc, hx⟩, hs⟩ := h
  have hb : s.exec ≠ .idle := by simp [hx]
  obtain ⟨hm, ⟨w, j, rest, -, -, he⟩ | ⟨rest, -, he, -⟩ | ⟨-, hu⟩ | ⟨he, -⟩⟩ := step_cases hs
  · exact absurd (exec_cases he).1 hb
  · exact absurd he hb
  · exact ⟨hm, hb, hu⟩
  · exact absurd he hb

/-- What every micro-step of a command in progress keeps, a step that goes on with a command keeps. -/
theorem continues_keeps {P : State → Prop} {i : Instr} {s t : State}
    (hT : ∀ s t, s.exec ≠ .idle → P s → tick s = .next t → P t) (hs : P s) (h : continues i s t) : P t := by
  obtain ⟨-, hb, u, hu, h⟩ := continues_cases h
  exact settle_keeps hT _ _ _ (hT _ _ hb hs hu) h

/-- The three transfers have the same micro-steps (R121, R130, R140). -/
theorem program_transfer {cmd : Instr} (h : isTransfer cmd = true) : program cmd = xferProgram := by
  cases cmd <;> first | rfl | cases h

/-- Everything a micro-step can do when it answers a next state: nothing, an operation of the pseudocode, or the return. -/
theorem micro_cases {s t : State} (h : micro s = .next t) :
    (s.exec = .idle ∧ t = s) ∨ ∃ cmd mpc loc, s.exec = .busy cmd mpc loc
      ∧ ((∃ op, (program cmd)[mpc]? = some op ∧ runOp cmd mpc loc op s = .next t)
        ∨ ((program cmd)[mpc]? = none ∧ t = respond .ok loc.acc s)) := by
  unfold micro at h
  split at h
  · rename_i he
    cases h
    exact .inl ⟨he, rfl⟩
  · rename_i cmd mpc loc he
    refine .inr ⟨cmd, mpc, loc, he, ?_⟩
    split at h
    · rename_i op ho
      exact .inl ⟨op, ho, h⟩
    · rename_i ho
      cases h
      exact .inr ⟨ho, rfl⟩

/-- Everything an operation of the pseudocode can do when it answers a next state: one event and its effect, and the
controller's move. -/
theorem runOp_cases {cmd : Instr} {mpc : Nat} {loc : Locals} {op : MicroOp} {s t : State}
    (h : runOp cmd mpc loc op s = .next t) :
    ∃ m l, (∃ line dir, t = (gpioDir line dir s).moveTo cmd m l)
      ∨ (t = (s.record (.regRead .ctrl s.ctrl)).moveTo cmd m l)
      ∨ (∃ v, t = ({ s with ctrl := v }.record (.regWrite .ctrl v)).moveTo cmd m l)
      ∨ (t = (s.record (.regRead .status s.status)).moveTo cmd m l)
      ∨ (∃ v, t = ({ s with status := s.statusWritten v }.record (.regWrite .status v)).moveTo cmd m l)
      ∨ (∃ v, t = { s with running := v }.moveTo cmd m l)
      ∨ (∃ b, s.shift = .idle
          ∧ t = ({ s with status := s.statusCleared, shift := .busy b s.liveNow }.record (.regWrite .data b)).moveTo cmd m l)
      ∨ (∃ r, s.shift = .idle ∧ s.rx = some r ∧ t = (s.record (.regRead .data r)).moveTo cmd m l) := by
  cases op with
  | gpio line dir => cases h; exact ⟨_, _, .inl ⟨_, _, rfl⟩⟩
  | readCtrl => cases h; exact ⟨_, _, .inr (.inl rfl)⟩
  | writeCtrl f => cases h; exact ⟨_, _, .inr (.inr (.inl ⟨_, rfl⟩))⟩
  | readStatus => cases h; exact ⟨_, _, .inr (.inr (.inr (.inl rfl)))⟩
  | writeStatus f => cases h; exact ⟨_, _, .inr (.inr (.inr (.inr (.inl ⟨_, rfl⟩))))⟩
  | setRunning v => cases h; exact ⟨_, _, .inr (.inr (.inr (.inr (.inr (.inl ⟨_, rfl⟩)))))⟩
  | poll => cases h; exact ⟨_, _, .inr (.inr (.inr (.inl rfl)))⟩
  | send =>
    simp only [runOp] at h
    rcases memWrite_data_cases (byteToSend s.params cmd loc.k) s with ⟨_, _, _, e⟩ | ⟨hs, e⟩ <;> rw [e] at h <;> cases h
    exact ⟨_, _, .inr (.inr (.inr (.inr (.inr (.inr (.inl ⟨_, hs, rfl⟩))))))⟩
  | receive again =>
    simp only [runOp] at h
    rcases memRead_data_cases s with ⟨_, _, _, e⟩ | ⟨_, _, e⟩ | ⟨r, hs, hr, e⟩ <;> rw [e] at h <;>
      simp only [afterRead] at h
    · cases h
    · cases h
    · split at h <;> cases h <;> exact ⟨_, _, .inr (.inr (.inr (.inr (.inr (.inr (.inr ⟨_, hs, hr, rfl⟩))))))⟩

/-- What the shift engine and every micro-step of the controller keep, every micro-step of the machine keeps. -/
theorem tick_keeps {P : State → Prop} (hE : ∀ s, P s → P (engineTurn s))
    (hM : ∀ s t, s.exec ≠ .idle → P s → micro s = .next t → P t) :
    ∀ s t : State, s.exec ≠ .idle → P s → tick s = .next t → P t :=
  fun s _ hb h ht => hM _ _ (by simpa using hb) (hE s h) ht

/-- What an issue, a response and every micro-step keep, a command keeps. -/
theorem exec_keeps {P : State → Prop} {i : Instr} {s t : State}
    (hT : ∀ s t, s.exec ≠ .idle → P s → tick s = .next t → P t)
    (hI : s.exec = .idle → P (issued i s)) (hR : ∀ st, s.exec = .idle → P (respond st 0 (issued i s)))
    (h : exec i s = .next t) : P t := by
  obtain ⟨he, ⟨st, -, rfl⟩ | ⟨-, hs⟩⟩ := exec_cases h
  · exact hR st he
  · exact settle_keeps hT _ _ _ (hI he) hs

/-- What the shift engine, every micro-step, an issue, a response, a move of the host and a reset keep, every step keeps. -/
theorem step_keeps {P : State → Prop} (hE : ∀ s, P s → P (engineTurn s))
    (hM : ∀ s t, s.exec ≠ .idle → P s → micro s = .next t → P t) (hH : ∀ s rest, P s → P { s with host := rest })
    (hI : ∀ s i, s.exec = .idle → P s → P (issued i s))
    (hR : ∀ s i st, s.exec = .idle → P s → P (respond st 0 (issued i s)))
    (hZ : ∀ s, P s → P (restart s)) {s t : State} (h : P s) (hs : step s = .next t) : P t := by
  have hT := tick_keeps hE hM
  obtain ⟨-, ⟨w, i, rest, -, -, hx⟩ | ⟨rest, -, -, rfl⟩ | ⟨hb, u, hu, hs⟩ | ⟨-, rfl⟩⟩ := step_cases hs
  · exact exec_keeps hT (fun he => hI _ _ he (hH _ _ h)) (fun st he => hR _ _ st he (hH _ _ h)) hx
  · exact hZ _ (hH _ _ h)
  · exact settle_keeps hT _ _ _ (hT _ _ hb h hu) hs
  · exact hE _ h

/-- With no transfer in progress, a run of micro-steps is one operation of the pseudocode and the rest of the run. -/
theorem settle_op {n : Nat} {s t : State} {cmd : Instr} {mpc : Nat} {loc : Locals} {op : MicroOp}
    (hx : s.exec = .busy cmd mpc loc) (hs : s.shift = .idle) (ho : (program cmd)[mpc]? = some op)
    (hr : runOp cmd mpc loc op s = .next t) : settle (n + 1) s = settle n t := by
  have ha : atRest s = false := by simp [atRest, State.isIdle, hx, awaitsPeer, hs]
  rw [settle]
  simp only [ha, Bool.false_eq_true, if_false, tick, engineTurn_of_idle hs, micro, hx, ho, hr]

/-- With no transfer in progress, a run of micro-steps at the end of the pseudocode returns `(Ok, acc)`. -/
theorem settle_return {n : Nat} {s : State} {cmd : Instr} {mpc : Nat} {loc : Locals}
    (hx : s.exec = .busy cmd mpc loc) (hs : s.shift = .idle) (ho : (program cmd)[mpc]? = none) :
    settle (n + 1) s = .next (respond .ok loc.acc s) := by
  have ha : atRest s = false := by simp [atRest, State.isIdle, hx, awaitsPeer, hs]
  rw [settle]
  simp only [ha, Bool.false_eq_true, if_false, tick, engineTurn_of_idle hs, micro, hx, ho]
  cases n with
  | zero => rfl
  | succ n => rw [settle]; simp [atRest, State.isIdle]

/-- A run of steps is its first step and the rest of the run, on any machine. -/
theorem run_of_step (M : Host.Core) {s t : M.State} (h : M.step s = .next t) (n : Nat) : M.run (n + 1) s = M.run n t := by
  rw [Host.Core.run.eq_2, h]

end Sys2Proof.Machine
end

