-- ==== Sys2Proof/Laws/Encoding.lean ====
section
/-! SUPPORT. Lemmas about the command word: the numbers its fields hold, and what masking it gives. -/

namespace Sys2Proof

theorem encode_toNat (i : Instr) : (encode i).toNat = i.opcode.toNat * 2 ^ 32 + i.operand.toNat := by
  have h1 := i.opcode.isLt
  have h2 := i.operand.isLt
  simp only [encode, BitVec.toNat_or, BitVec.toNat_shiftLeft, BitVec.toNat_setWidth]
  rw [Nat.mod_eq_of_lt (a := i.opcode.toNat) (by omega), Nat.mod_eq_of_lt (a := i.operand.toNat) (by omega),
    Nat.shiftLeft_eq, Nat.mod_eq_of_lt (by omega), Nat.mul_comm, ← Nat.two_pow_add_eq_or_of_lt (by omega)]

theorem opField_toNat (x : CommandWord) : (opField x).toNat = x.toNat / 2 ^ 32 := by
  have h := x.isLt
  simp only [opField, BitVec.extractLsb'_toNat, Nat.shiftRight_eq_div_pow]
  omega

theorem operandField_toNat (x : CommandWord) : (operandField x).toNat = x.toNat % 2 ^ 32 := by
  simp only [operandField, BitVec.extractLsb'_toNat, Nat.shiftRight_eq_div_pow]
  omega

theorem opField_encode (i : Instr) : opField (encode i) = i.opcode := by
  have h1 := i.operand.isLt
  apply BitVec.eq_of_toNat_eq
  rw [opField_toNat, encode_toNat]
  omega

theorem operandField_encode (i : Instr) : operandField (encode i) = i.operand := by
  have h1 := i.operand.isLt
  apply BitVec.eq_of_toNat_eq
  rw [operandField_toNat, encode_toNat]
  omega

/-- Two words with the same fields are the same word. -/
theorem commandWord_ext {x y : CommandWord} (ho : opField x = opField y) (hd : operandField x = operandField y) : x = y := by
  apply BitVec.eq_of_toNat_eq
  have h1 := congrArg BitVec.toNat ho
  have h2 := congrArg BitVec.toNat hd
  rw [opField_toNat, opField_toNat] at h1
  rw [operandField_toNat, operandField_toNat] at h2
  omega

theorem or_and_mask (a c m : CommandWord) : (a ||| c) &&& m = (a &&& m) ||| (c &&& m) := by
  ext k
  simp [Bool.and_or_distrib_right]

/-- An argument vanishes under a mask that is 0 on its bits. -/
theorem setWidth_and_mask {n : Nat} (v : BitVec n) (m : CommandWord) (h : ∀ k < n, m.getLsbD k = false) :
    (v.setWidth 40 : CommandWord) &&& m = 0 := by
  ext k hk
  by_cases hn : k < n
  · simp [h k hn, ← BitVec.getLsbD_eq_getElem]
  · simp [BitVec.getLsbD_of_ge v k (by omega)]

theorem setWidth_operand_and_mask {n : Nat} (hn : n ≤ 32) (v : BitVec n) (m : CommandWord)
    (h : ∀ k < n, m.getLsbD k = false) : ((v.setWidth 32).setWidth 40 : CommandWord) &&& m = 0 := by
  have e : ((v.setWidth 32).setWidth 40 : CommandWord) = v.setWidth 40 := by
    apply BitVec.eq_of_toNat_eq
    have hv := Nat.lt_of_lt_of_le v.isLt (Nat.pow_le_pow_right (by decide : 0 < 2) hn)
    simp only [BitVec.toNat_setWidth]
    omega
  rw [e]
  exact setWidth_and_mask v m h

/-- A command's word is in its row of the opcode table: `x & mask = match` (R83). -/
theorem encode_and_rowMask (i : Instr) : encode i &&& i.rowMask = i.rowMatch := by
  cases i with
  | beginBus => decide
  | endBus => decide
  | transferByte b =>
    rw [encode, or_and_mask]
    simp only [Instr.operand, Instr.opcode, Instr.rowMask, Instr.rowMatch]
    rw [setWidth_operand_and_mask (by decide) b _ (by decide)]; decide
  | transferWord w =>
    rw [encode, or_and_mask]
    simp only [Instr.operand, Instr.opcode, Instr.rowMask, Instr.rowMatch]
    rw [setWidth_operand_and_mask (by decide) w _ (by decide)]; decide
  | transferDWord d =>
    rw [encode, or_and_mask]
    simp only [Instr.operand, Instr.opcode, Instr.rowMask, Instr.rowMatch]
    rw [setWidth_and_mask d _ (by decide)]; decide
  | setClockDivider d =>
    rw [encode, or_and_mask]
    simp only [Instr.operand, Instr.opcode, Instr.rowMask, Instr.rowMatch]
    rw [setWidth_operand_and_mask (by decide) d _ (by decide)]; decide
  | setDataMode m =>
    rw [encode, or_and_mask]
    simp only [Instr.operand, Instr.opcode, Instr.rowMask, Instr.rowMatch]
    rw [setWidth_operand_and_mask (by decide) m _ (by decide)]; decide

@[simp] theorem opField_and (x m : CommandWord) : opField (x &&& m) = opField x &&& opField m := by
  ext k hk
  simp [opField]

@[simp] theorem operandField_and (x m : CommandWord) : operandField (x &&& m) = operandField x &&& operandField m := by
  ext k hk
  simp [operandField]

theorem byte_and_allOnes (a : BitVec 8) : a &&& 0xFF#8 = a := by
  have h : (0xFF#8) = BitVec.allOnes 8 := by decide
  rw [h, BitVec.and_allOnes]

/-- A word is in a row of R83 exactly when it has the row's opcode and its unused operand bits are 0. -/
theorem and_mask_eq_iff {m v : CommandWord} (hm : opField m = 0xFF#8) (hv : operandField v = 0) (x : CommandWord) :
    x &&& m = v ↔ opField x = opField v ∧ operandField x &&& operandField m = 0 := by
  constructor
  · intro h
    subst h
    rw [operandField_and] at hv
    exact ⟨by rw [opField_and, hm, byte_and_allOnes], hv⟩
  · rintro ⟨h1, h2⟩
    apply commandWord_ext
    · rw [opField_and, hm, byte_and_allOnes, h1]
    · rw [operandField_and, h2, hv]

/-- The low bits of a word are the low bits of its operand. -/
theorem extractLsb'_of_operand {n : Nat} (hn : n ≤ 32) (x : CommandWord) :
    x.extractLsb' 0 n = (operandField x).setWidth n := by
  ext k hk
  simp only [operandField, BitVec.getElem_extractLsb', BitVec.getElem_setWidth, BitVec.getLsbD_extractLsb']
  simp only [show k < 32 by omega, decide_true, Bool.true_and]

/-- Decoding by fields: the opcode chooses the row, and the row's unused operand bits must be 0 (R83, R85, R89). -/
theorem decode_fields (x : CommandWord) :
    decode x =
      if opField x = 0x01#8 ∧ operandField x &&& 0xFFFFFFFF#32 = 0 then .command .beginBus
      else if opField x = 0x02#8 ∧ operandField x &&& 0xFFFFFFFF#32 = 0 then .command .endBus
      else if opField x = 0x03#8 ∧ operandField x &&& 0xFFFFFF00#32 = 0 then
        .command (.transferByte ((operandField x).setWidth 8))
      else if opField x = 0x04#8 ∧ operandField x &&& 0xFFFF0000#32 = 0 then
        .command (.transferWord ((operandField x).setWidth 16))
      else if opField x = 0x05#8 ∧ operandField x &&& 0x00000000#32 = 0 then
        .command (.transferDWord (operandField x))
      else if opField x = 0x06#8 ∧ operandField x &&& 0xFFFFFF00#32 = 0 then
        .command (.setClockDivider ((operandField x).setWidth 8))
      else if opField x = 0x07#8 ∧ operandField x &&& 0xFFFFFF00#32 = 0 then
        .command (.setDataMode ((operandField x).setWidth 8))
      else if 0x01#8 ≤ opField x ∧ opField x ≤ 0x07#8 then .illegalCommand .unusedOperandBits
      else .illegalCommand .reservedOpcode := by
  unfold decode
  rw [extractLsb'_of_operand (by decide), extractLsb'_of_operand (by decide), extractLsb'_of_operand (n := 32) (by decide),
    BitVec.setWidth_eq]
  simp only [and_mask_eq_iff (m := 0xFFFFFFFFFF#40) (v := 0x0100000000#40) (by decide) (by decide) x,
    and_mask_eq_iff (m := 0xFFFFFFFFFF#40) (v := 0x0200000000#40) (by decide) (by decide) x,
    and_mask_eq_iff (m := 0xFFFFFFFF00#40) (v := 0x0300000000#40) (by decide) (by decide) x,
    and_mask_eq_iff (m := 0xFFFFFF0000#40) (v := 0x0400000000#40) (by decide) (by decide) x,
    and_mask_eq_iff (m := 0xFF00000000#40) (v := 0x0500000000#40) (by decide) (by decide) x,
    and_mask_eq_iff (m := 0xFFFFFFFF00#40) (v := 0x0600000000#40) (by decide) (by decide) x,
    and_mask_eq_iff (m := 0xFFFFFFFF00#40) (v := 0x0700000000#40) (by decide) (by decide) x]
  rfl

/-- A zero-extended argument leaves the bits above its width 0. -/
theorem setWidth_and_high {n : Nat} (v : BitVec n) (m : Operand) (h : ∀ k < n, m.getLsbD k = false) :
    v.setWidth 32 &&& m = 0 := by
  ext k hk
  by_cases hn : k < n
  · simp [h k hn, ← BitVec.getLsbD_eq_getElem]
  · simp [BitVec.getLsbD_of_ge v k (by omega)]

/-- An operand whose bits above width `n` are 0 is its low `n` bits, zero-extended. -/
theorem setWidth_setWidth_of_high {n : Nat} (y m : Operand) (hm : ∀ k, n ≤ k → k < 32 → m.getLsbD k = true)
    (h : y &&& m = 0) : (y.setWidth n).setWidth 32 = y := by
  ext k hk
  have hy := congrArg (fun z : Operand => z.getLsbD k) h
  simp only [BitVec.getLsbD_setWidth, ← BitVec.getLsbD_eq_getElem]
  simp only [BitVec.getLsbD_and] at hy
  by_cases hkn : k < n
  · simp only [hkn, hk, decide_true, Bool.true_and]
  · rw [hm k (by omega) hk, Bool.and_true] at hy
    simp only [hkn, decide_false, Bool.false_and, Bool.and_false]
    exact (BitVec.getLsbD_zero (w := 32)).symm.trans hy.symm

end Sys2Proof
end

