-- ==== Sys2Proof/Laws/PerInstr.lean ====
section
/-! SUPPORT. The family Encoding, one lemma per constructor: a command's word lies in its row of the opcode table and
holds its opcode and its operand (30_encoding.md R81 to R83, R88). -/

namespace Sys2Proof.Laws.Encoding

def Statement (i : Instr) : Prop :=
  encode i &&& i.rowMask = i.rowMatch ∧ opField (encode i) = i.opcode ∧ operandField (encode i) = i.operand

theorem of_instr (i : Instr) : Statement i := ⟨encode_and_rowMask i, opField_encode i, operandField_encode i⟩

theorem beginBus : Statement .beginBus := of_instr _

theorem endBus : Statement .endBus := of_instr _

theorem transferByte (b : Byte) : Statement (.transferByte b) := of_instr _

theorem transferWord (w : Half) : Statement (.transferWord w) := of_instr _

theorem transferDWord (d : Operand) : Statement (.transferDWord d) := of_instr _

theorem setClockDivider (d : Byte) : Statement (.setClockDivider d) := of_instr _

theorem setDataMode (m : Byte) : Statement (.setDataMode m) := of_instr _

end Sys2Proof.Laws.Encoding
end

