-- ==== Sys2Proof/Laws/Transfer.lean ====
section
/-! SUPPORT. The polls of one byte exchange (41_transfer.md R122, R128): a run of micro-steps from the poll to the read of
DATA, and a whole exchange. -/

namespace Sys2Proof.Machine

/-- At the poll, with the transfer of `b` in progress, `h` the history so far and `script` the schedule's rest. -/
def polling (b : Byte) (cmd : Instr) (loc : Locals) (h : List Event) (script : List Bool) (s : State) : State :=
  { s with
    exec := .busy cmd 1 loc
    shift := .busy b s.liveNow
    status := s.statusCleared
    history := h
    engine := { s.engine with script := script } }

/-- Past the poll: the exchange completed with `r` received and the poll saw it. -/
def polled (b r : Byte) (cmd : Instr) (loc : Locals) (h : List Event) (script : List Bool) (s : State) : State :=
  { s with
    exec := .busy cmd 2 { loc with s := s.statusCompleted }
    shift := .idle
    status := s.statusCompleted
    rx := some r
    choice := s.choice + 1
    history := h ++ [.wire b r s.liveNow, .regRead .status s.statusCompleted]
    engine := { s.engine with script := script } }

/-- The poll after the completion step sees COMPLETE and goes on. -/
theorem micro_poll_complete {cmd : Instr} (hc : isTransfer cmd = true) (s : State) (b : Byte) (loc : Locals)
    (h : List Event) (script : List Bool) :
    micro (completeTransfer b s.liveNow (polling b cmd loc h script s))
      = .next (polled b (peerAnswer s.peer h b s.choice) cmd loc h script s) := by
  have h1 := statusCompleted_of_cleared s
  have h2 := statusCompleted_and s
  simp only [micro, completeTransfer, polling, polled, program_transfer hc, xferProgram, List.getElem?_cons_succ,
    List.getElem?_cons_zero, runOp, afterRead, memRead_status, State.moveTo, State.record]
  simp only [State.statusCompleted] at h1 h2 ⊢
  simpa [h1] using h2

/-- A poll before the completion step reads COMPLETE = 0 and is repeated. -/
theorem micro_poll_again {cmd : Instr} (hc : isTransfer cmd = true) (s : State) (b : Byte) (loc : Locals)
    (h : List Event) (script : List Bool) :
    micro (polling b cmd loc h script s)
      = .next (polling b cmd { loc with s := s.statusCleared } (h ++ [.regRead .status s.statusCleared]) script s) := by
  have h2 := statusCleared_and s
  simp only [micro, polling, program_transfer hc, xferProgram, List.getElem?_cons_succ, List.getElem?_cons_zero,
    runOp, afterRead, memRead_status, State.moveTo, State.record]
  simp [h2]

/-- The polls of an exchange that completes, from the first to the one that sees COMPLETE. -/
theorem settle_polls {cmd : Instr} (hc : isTransfer cmd = true) (s : State) (b : Byte) (n : Nat) :
    ∀ (script : List Bool) (loc : Locals) (h : List Event), true ∈ script ∨ s.engine.afterScript s.liveNow = .completes →
      settle (n + ((script.takeWhile (!·)).length + 1)) (polling b cmd loc h script s)
        = settle n (polled b
            (peerAnswer s.peer
              (h ++ List.replicate (script.takeWhile (!·)).length (.regRead .status s.statusCleared)) b s.choice)
            cmd loc (h ++ List.replicate (script.takeWhile (!·)).length (.regRead .status s.statusCleared))
            (script.dropWhile (!·)).tail s)
  | [], loc, h, ha => by
    have hl : s.engine.afterScript s.liveNow = .completes := by simpa using ha
    have ha : ({ s.engine with script := [] } : Schedule).afterScript s.liveNow = .completes := hl
    have hr : atRest (polling b cmd loc h [] s) = false := by
      simp only [atRest, State.isIdle, awaitsPeer, polling, ha]
      simp
    have he : engineTurn (polling b cmd loc h [] s) = completeTransfer b s.liveNow (polling b cmd loc h [] s) := by
      unfold engineTurn
      simp only [polling, ha]
    rw [show n + ((([] : List Bool).takeWhile (!·)).length + 1) = n + 1 from rfl, settle, hr]
    simp [tick, he, micro_poll_complete hc]
  | true :: rest, loc, h, _ => by
    have hr : atRest (polling b cmd loc h (true :: rest) s) = false := by
      simp [atRest, State.isIdle, awaitsPeer, polling]
    have he : engineTurn (polling b cmd loc h (true :: rest) s)
        = completeTransfer b s.liveNow (polling b cmd loc h rest s) := rfl
    rw [show n + (((true :: rest).takeWhile (!·)).length + 1) = n + 1 by simp, settle, hr]
    simp [tick, he, micro_poll_complete hc]
  | false :: rest, loc, h, ha => by
    have hr : atRest (polling b cmd loc h (false :: rest) s) = false := by
      simp [atRest, State.isIdle, awaitsPeer, polling]
    have he : engineTurn (polling b cmd loc h (false :: rest) s) = polling b cmd loc h rest s := rfl
    rw [show n + (((false :: rest).takeWhile (!·)).length + 1) = (n + ((rest.takeWhile (!·)).length + 1)) + 1 by
      simp; omega, settle, hr]
    simp only [tick, he, micro_poll_again hc, Bool.false_eq_true, if_false]
    rw [settle_polls hc s b n rest _ _ (by simpa using ha)]
    simp [List.replicate_succ, polled]

/-- The locals after the exchange at position `loc.k`, which received `r`. -/
def nextLocals (cmd : Instr) (loc : Locals) (s : State) (r : Byte) : Locals :=
  { loc with s := s.statusCompleted, acc := accumulate s.params cmd loc.k loc.acc r }

/-- A whole exchange that completes, whatever the polls it takes: on to the next wire position, or past the loop. -/
theorem settle_exchange {cmd : Instr} (hc : isTransfer cmd = true) {s : State} {loc : Locals} (n : Nat)
    (hx : s.exec = .busy cmd 0 loc) (hs : s.shift = .idle)
    (ha : true ∈ s.engine.script ∨ s.engine.afterScript s.liveNow = .completes) :
    let b := byteToSend s.params cmd loc.k
    let next := nextLocals cmd loc s (received b s)
    settle (n + (s.engine.waits + 3)) s = settle n
      (if loc.k < lastPosition cmd then (exchange b s).moveTo cmd 0 { next with k := loc.k + 1 }
       else (exchange b s).moveTo cmd 3 next) := by
  intro b next
  have hsend : settle ((n + (s.engine.waits + 2)) + 1) s
      = settle (n + (s.engine.waits + 2))
          (polling b cmd loc (s.history ++ [.regWrite .data b]) s.engine.script s) := by
    apply settle_op hx hs (op := .send)
    · rw [program_transfer hc]; rfl
    · simp [b, runOp, memWrite_data_of_idle _ hs, afterWrite, State.moveTo, polling, State.record]
  have hw : n + (s.engine.waits + 2) = (n + 1) + ((s.engine.script.takeWhile (!·)).length + 1) := by
    simp only [Schedule.waits]; omega
  have hh : s.history ++ [Event.regWrite RegId.data b]
      ++ List.replicate (List.takeWhile (!·) s.engine.script).length (Event.regRead RegId.status s.statusCleared)
        = exchangeStarted b s := by
    simp [exchangeStarted, Schedule.waits]
  rw [show n + (s.engine.waits + 3) = (n + (s.engine.waits + 2)) + 1 by omega, hsend, hw,
    settle_polls hc s _ (n + 1) _ _ _ ha, hh]
  refine settle_op (op := .receive 0) rfl rfl (by rw [program_transfer hc]; rfl) ?_
  simp only [runOp, polled]
  rw [memRead_data_of_idle rfl rfl]
  simp only [afterRead]
  split <;> simp [b, next, nextLocals, hs, exchange, State.moveTo, State.record, received, Schedule.afterExchange]

end Sys2Proof.Machine
end

