-- ==== Sys2Proof/Tests/Slice0.lean ====
section
/-! SUPPORT. The model's own tests. Expected results are the spec's: 95_test_vectors.md names them S1 to S8, L1 to L9, C1 to
C15, T1 to T19, F1 to F4 and 2.1; the rest are worked out from the rule named. Then one witness per statement with hypotheses:
a concrete state and operands that meet them all. -/

namespace Sys2Proof.Tests

open Sys2Proof.Machine

/-! ## Helpers -/

/-- The schedule of a responsive peer: after `script` every transfer completes at its next opportunity. -/
def completing (script : List Bool) : Schedule :=
  { script := script, live := .completes, dead := .completes, opportunity := 0 }

/-- The schedule of a peer that stops answering (T18, T19): after `script` no transfer completes. -/
def hanging (script : List Bool) : Schedule := { script := script, live := .never, dead := .never, opportunity := 0 }

/-- Running, with these registers and this peer, which is responsive; everything else as after reset. -/
def running (ctrl status : Byte) (peer : Peer) : State :=
  { State.reset with running := true, ctrl := ctrl, status := status, peer := peer, engine := completing [] }

/-- Stopped, with these registers. -/
def stopped (ctrl status : Byte) : State := { State.reset with ctrl := ctrl, status := status }

/-- The state every vector of 2.4 starts from. -/
def begun (peer : Peer) : State := running 0x50 0x01 peer

/-- `begun` with another byte order (T11, T12). -/
def begunWith (order : Vector (Fin 4) 4) (peer : Peer) : State :=
  { begun peer with params := { Config.defaults with dwordOrder := order } }

/-- `begun` with the schedule of T18 and T19: after `script` no transfer completes. -/
def begunHanging (script : List Bool) (peer : Peer) : State :=
  { begun peer with engine := hanging script }

/-- Reset with the parameters of L7. -/
def resetL7 : State :=
  { State.reset with
    params := { Config.defaults with enableBit := 7, masterBit := 5, completeBit := 6, hispeedBit := 1 } }

/-- A check of the next state of an outcome; false where it faults or refuses. -/
def nextIs (o : Host.Outcome State Fault Refusal) (p : State → Bool) : Bool :=
  match o with
  | .next t => p t
  | .fault _ => false
  | .refused _ => false

/-- An outcome that is a next state, from the check that it is one. -/
theorem test_next_of {o : Host.Outcome State Fault Refusal} (h : nextIs o (fun _ => true) = true) : ∃ t, o = .next t := by
  cases o with
  | next t => exact ⟨t, rfl⟩
  | fault _ => cases h
  | refused _ => cases h

/-- The last event is this response. -/
def answered (st : Status) (v : Operand) (t : State) : Bool := decide (t.history.getLast? = some (.resp st v))

/-- The exchanges of the history, in order. -/
def wires (t : State) : List (Byte × Byte × Bool) :=
  t.history.filterMap fun e => match e with | .wire tx rx live => some (tx, rx, live) | _ => none

/-- One step that takes the command word `w`. -/
def stepOn (w : Nat) (s : State) : Host.Outcome State Fault Refusal := step (s.withFetchWord 40 w)

/-! ## WellFormed: an ill-formed term for each check -/

theorem test_legal_defaults : Config.defaults.legal = true := by decide

theorem test_enable_below_4_refused : ({ Config.defaults with enableBit := 3 } : Config.Params).legal = false := by decide

theorem test_master_below_4_refused : ({ Config.defaults with masterBit := 3 } : Config.Params).legal = false := by decide

theorem test_enable_is_master_refused : ({ Config.defaults with masterBit := 6 } : Config.Params).legal = false := by decide

theorem test_complete_is_hispeed_refused :
    ({ Config.defaults with hispeedBit := 7 } : Config.Params).legal = false := by decide

theorem test_order_not_a_permutation_refused :
    ({ Config.defaults with dwordOrder := #v[0, 1, 2, 2] } : Config.Params).legal = false := by decide

theorem test_reset_enable_set_refused : ({ Config.defaults with ctrlReset := 0x40 } : Config.Params).legal = false := by decide

theorem test_reset_master_set_refused : ({ Config.defaults with ctrlReset := 0x10 } : Config.Params).legal = false := by decide

theorem test_reset_complete_set_refused :
    ({ Config.defaults with statusReset := 0x80 } : Config.Params).legal = false := by decide

theorem test_reset_hispeed_set_refused :
    ({ Config.defaults with statusReset := 0x01 } : Config.Params).legal = false := by decide

theorem test_missing_literal_refused : (TextCommand.mk .transferByte none).wellFormed = false := by decide

theorem test_literal_too_wide_refused : (TextCommand.mk .transferByte (some 256)).wellFormed = false := by decide

theorem test_literal_not_taken_refused : (TextCommand.mk .beginBus (some 0)).wellFormed = false := by decide

/-! ## Decoding: the words of 2.1, written out from R81 to R83 -/

theorem test_decode_lifecycle :
    decode 0x0100000000#40 = .command .beginBus ∧ decode 0x0200000000#40 = .command .endBus := by decide

theorem test_decode_transfer :
    decode 0x03000000FF#40 = .command (.transferByte 0xFF) ∧ decode 0x040000FFFF#40 = .command (.transferWord 0xFFFF)
      ∧ decode 0x05FFFFFFFF#40 = .command (.transferDWord 0xFFFFFFFF)
      ∧ decode 0x0500000000#40 = .command (.transferDWord 0) := by decide

theorem test_decode_configuration :
    decode 0x0600000006#40 = .command (.setClockDivider 6) ∧ decode 0x07000000FF#40 = .command (.setDataMode 0xFF) := by
  decide

theorem test_decode_reserved :
    decode 0x0000000000#40 = .illegalCommand .reservedOpcode ∧ decode 0x0800000000#40 = .illegalCommand .reservedOpcode
      ∧ decode 0xFF00000000#40 = .illegalCommand .reservedOpcode := by decide

theorem test_decode_unused_bits :
    decode 0x0100000001#40 = .illegalCommand .unusedOperandBits
      ∧ decode 0x0300000100#40 = .illegalCommand .unusedOperandBits
      ∧ decode 0x0400010000#40 = .illegalCommand .unusedOperandBits
      ∧ decode 0x0600000100#40 = .illegalCommand .unusedOperandBits := by decide

/-- The words of P1 and P2, by assembling their text (R88). -/
theorem test_assemble :
    assembleLine "begin" = some 0x0100000000 ∧ assembleLine "setClockDivider 2" = some 0x0600000002
      ∧ assembleLine "transferWord 0x1234" = some 0x0400001234
      ∧ assembleLine "transferDWord 0xAABBCCDD" = some 0x05AABBCCDD := by decide

/-- R87: names are case-sensitive, a literal too wide and a missing argument are assembly errors. -/
theorem test_assemble_errors :
    assembleLine "Begin" = none ∧ assembleLine "transferByte 256" = none ∧ assembleLine "transferByte" = none
      ∧ assembleLine "end 0" = none := by decide

/-! ## One step of each command, as the vectors give it -/

/-- L1. -/
theorem test_begin_L1 : nextIs (stepOn 0x0100000000 State.reset) (fun t =>
    decide (t.running = true ∧ t.ctrl = 0x50 ∧ t.status = 0x01 ∧ t.exec = .idle
      ∧ t.history = [.cmd 0x0100000000, .gpio .select .output, .gpio .dataOut .output, .gpio .dataIn .input,
          .gpio .clock .output, .regRead .ctrl 0x00, .regWrite .ctrl 0x50, .regRead .status 0x00,
          .regWrite .status 0x01, .resp .ok 0])) = true := by decide

/-- L7. -/
theorem test_begin_L7 : nextIs (stepOn 0x0100000000 resetL7) (fun t =>
    decide (t.running = true ∧ t.ctrl = 0xA0 ∧ t.status = 0x02) && answered .ok 0 t) = true := by decide

/-- L4. -/
theorem test_end_L4 : nextIs (stepOn 0x0200000000 (running 0x5E 0x81 .loopBack)) (fun t =>
    decide (t.running = false ∧ t.ctrl = 0x0E ∧ t.status = 0x80
      ∧ t.history = [.cmd 0x0200000000, .regRead .ctrl 0x5E, .regWrite .ctrl 0x0E, .regRead .status 0x81,
          .regWrite .status 0x80, .gpio .select .input, .gpio .dataOut .input, .gpio .dataIn .input,
          .gpio .clock .input, .resp .ok 0])) = true := by decide

/-- L3, S2. -/
theorem test_end_L3 : nextIs (stepOn 0x0200000000 State.reset) (fun t =>
    decide (t.running = false ∧ t.history = [.cmd 0x0200000000, .resp .notStarted 0])) = true := by decide

/-- T3, with its full history at the fewest polls. -/
theorem test_transferByte_T3 : nextIs (stepOn 0x03000000A5 (begun .loopBack)) (fun t =>
    decide (t.status = 0x81 ∧ t.rx = some 0xA5
      ∧ t.history = [.cmd 0x03000000A5, .regWrite .data 0xA5, .wire 0xA5 0xA5 true, .regRead .status 0x81,
          .regRead .data 0xA5, .resp .ok 0x000000A5])) = true := by decide

/-- T4. -/
theorem test_transferByte_T4 : nextIs (stepOn 0x03000000A5 (begun (.scripted [0x3C]))) (fun t =>
    decide (wires t = [(0xA5, 0x3C, true)]) && answered .ok 0x3C t) = true := by decide

/-- T6. -/
theorem test_transferWord_T6 : nextIs (stepOn 0x0400001234 (begun (.scripted [0xAB, 0xCD]))) (fun t =>
    decide (t.status = 0x81 ∧ wires t = [(0x12, 0xAB, true), (0x34, 0xCD, true)]) && answered .ok 0xABCD t) = true := by
  decide

/-- T19: the hang after one byte. -/
theorem test_transferWord_T19 : nextIs (stepOn 0x0400001234 (begunHanging [true] (.scripted [0x10]))) (fun t =>
    decide (t.status = 0x01 ∧ wires t = [(0x12, 0x10, true)] ∧ t.exec ≠ .idle ∧ t.shift = .busy 0x34 true)) = true := by
  decide

/-- T10. -/
theorem test_transferDWord_T10 : nextIs (stepOn 0x05AABBCCDD (begun (.scripted [0x01, 0x02, 0x03, 0x04]))) (fun t =>
    decide (wires t = [(0xDD, 0x01, true), (0xCC, 0x02, true), (0xBB, 0x03, true), (0xAA, 0x04, true)])
      && answered .ok 0x04030201 t) = true := by decide

/-- T11. -/
theorem test_transferDWord_T11 :
    nextIs (stepOn 0x05AABBCCDD (begunWith #v[0, 2, 1, 3] (.scripted [0x01, 0x02, 0x03, 0x04]))) (fun t =>
      decide (wires t = [(0xDD, 0x01, true), (0xBB, 0x02, true), (0xCC, 0x03, true), (0xAA, 0x04, true)])
        && answered .ok 0x04020301 t) = true := by decide

/-- C6. -/
theorem test_setClockDivider_C6 : nextIs (stepOn 0x06000000FC (running 0x5F 0x01 .loopBack)) (fun t =>
    decide (t.ctrl = 0x5C) && answered .ok 0 t) = true := by decide

/-- C13. -/
theorem test_setClockDivider_C13 : nextIs (stepOn 0x0600000002 State.reset) (fun t =>
    decide (t.ctrl = 0x00 ∧ t.history = [.cmd 0x0600000002, .resp .notStarted 0])) = true := by decide

/-- C11. -/
theorem test_setDataMode_C11 : nextIs (stepOn 0x0700000000 (running 0x5F 0x01 .loopBack)) (fun t =>
    decide (t.ctrl = 0x53) && answered .ok 0 t) = true := by decide

/-- C15. -/
theorem test_setDataMode_C15 : nextIs (stepOn 0x0700000002 (running 0xF3 0x01 .loopBack)) (fun t =>
    decide (t.ctrl = 0xFB) && answered .ok 0 t) = true := by decide

/-! ## Refusals and faults -/

/-- F1. -/
theorem test_refusal_F1 : step (State.reset.withFetchWord 40 0x0900000000) = .refused .illegalCommand := rfl

/-- F2: `end` issued while `transferDWord` polls for its first byte. -/
def duringDWord : State :=
  { begunHanging [] .loopBack with
    exec := .busy (.transferDWord 0xAABBCCDD) 1 Locals.start
    shift := .busy 0xDD true }

theorem test_refusal_F2 : step (duringDWord.withFetchWord 40 0x0200000000) = .refused .commandWhileBusy := rfl

/-- F3. -/
theorem test_fault_F3 : memWrite .data 0x00 duringDWord = .error .dataAccessWhileBusy := rfl

/-- F4. -/
theorem test_fault_F4 : memRead .data State.reset = .error .unwrittenRead := rfl

/-- R124, T17, P4: from reset nothing says whether the transfer, which is not live, completes: the first step ends at its
poll, with DATA written and no response. -/
theorem test_not_live_open_T17 : nextIs (stepOn 0x0300000055 State.reset) (fun t =>
    decide (t.exec ≠ .idle ∧ t.shift = .busy 0x55 false ∧ awaitsPeer t = true
      ∧ t.history = [.cmd 0x0300000055, .regWrite .data 0x55])) = true := by decide

/-- Reset, with a peer that answers 0x77 and a schedule that completes transfers which are not live. -/
def resetAnswered : State := { State.reset with peer := .scripted [0x77], engine := completing [] }

/-- The other outcome of T17: it completes, with `live` false. -/
theorem test_not_live_answered_T17 : nextIs (stepOn 0x0300000055 resetAnswered) (fun t =>
    decide (t.status = 0x80 ∧ wires t = [(0x55, 0x77, false)]) && answered .ok 0x77 t) = true := by decide

/-! ## Witnesses: each meets all the hypotheses of one statement -/

/-- `begun`, with the host's next move. -/
def begunWithMove (m : HostMove) : State := { begun .loopBack with host := [m] }

/-- `begun` after a command and its exchange, with the host's next command. -/
def afterExchange : State :=
  { begunWithMove (.issue 0x03000000A5) with
    status := 0x81
    rx := some 0x42
    history := [.cmd 0x0300000042, .regWrite .data 0x42, .wire 0x42 0x42 true, .regRead .status 0x81,
      .regRead .data 0x42, .resp .ok 0x42] }

/-- A step that takes a transfer word from `begun` gives a next state. -/
theorem test_witness_step_next : step afterExchange = .next (advance afterExchange) := rfl

theorem test_begun_inv : (begunWithMove .reset).Inv := ⟨by decide, ⟨by decide, by decide, by decide⟩, rfl⟩

theorem test_stopped_inv : (State.reset).Inv := ⟨by decide, ⟨by decide, by decide, by decide⟩, rfl⟩

theorem test_afterExchange_inv : afterExchange.Inv := ⟨by decide, ⟨by decide, by decide, by decide⟩, rfl⟩

theorem test_witness_ResetMoveGivesResetState :
    (begunWithMove .reset).mark = none ∧ (begunWithMove .reset).host = .reset :: [] ∧ (begunWithMove .reset).exec = .idle
      ∧ (begunWithMove .reset).params.legal = true := ⟨rfl, rfl, rfl, by decide⟩

theorem test_witness_StepKeepsInvariant : afterExchange.Inv ∧ step afterExchange = .next (advance afterExchange) :=
  ⟨test_afterExchange_inv, rfl⟩

/-- The invariant inside a command: at the poll of a transfer in progress. -/
theorem test_witness_StepKeepsInvariant_at_poll :
    duringDWord.Inv ∧ step duringDWord = .next (advance duringDWord) := by
  refine ⟨⟨by decide, ⟨by decide, by decide, by decide⟩, ?_⟩, rfl⟩
  exact ⟨by decide, .inl ⟨by decide, by decide⟩⟩

theorem test_witness_CommandsNeverFault : afterExchange.Inv ∧ afterExchange.mark = none := ⟨test_afterExchange_inv, rfl⟩

theorem test_witness_ReceiveValueIsLastByteReceived :
    afterExchange.rxInv ∧ step afterExchange = .next (advance afterExchange) := ⟨rfl, rfl⟩

theorem test_witness_EveryCommandHasOneResponse :
    afterExchange.responseInv ∧ step afterExchange = .next (advance afterExchange) := ⟨rfl, rfl⟩

theorem test_witness_EveryExchangeIsStartedByDataWrite :
    afterExchange.wireInv ∧ step afterExchange = .next (advance afterExchange) := ⟨rfl, rfl⟩

theorem test_witness_HistoryIsOnlyAppendedTo_command : step afterExchange = .next (advance afterExchange) := rfl

theorem test_witness_HistoryIsOnlyAppendedTo_reset :
    step (begunWithMove .reset) = .next (advance (begunWithMove .reset)) := rfl

theorem test_witness_StepKeepsConfiguration : step afterExchange = .next (advance afterExchange) := rfl

theorem test_witness_EncodeOfDecodedIsTheWord : decode 0x03000000A5#40 = .command (.transferByte 0xA5) := by decide

/-- The least and the greatest reserved opcodes on either side of the defined ones. -/
theorem test_witness_ReservedOpcodesAreRefused_00 :
    opField 0x0000000000#40 = 0x00#8 ∧ (begunWithMove (.issue 0x0000000000)).mark = none
      ∧ (begunWithMove (.issue 0x0000000000)).exec = .idle
      ∧ (begunWithMove (.issue 0x0000000000)).host = .issue 0x0000000000 :: [] := ⟨by decide, rfl, rfl, rfl⟩

theorem test_witness_ReservedOpcodesAreRefused_08 :
    0x08#8 ≤ opField 0x0800000000#40 ∧ 0x08#8 ≤ opField 0xFFFFFFFFFF#40 := by decide

/-- The host's other issue. -/
theorem test_witness_ReservedOpcodesAreRefused_issueAtOnce :
    opField 0xFF00000000#40 = 0xFF#8 ∧ (placeWord 0xFF00000000 State.reset).mark = none
      ∧ (placeWord 0xFF00000000 State.reset).exec = .idle
      ∧ (placeWord 0xFF00000000 State.reset).host = .issueAtOnce 0xFF00000000 :: [] := ⟨by decide, rfl, rfl, rfl⟩

theorem test_witness_UnusedOperandBitsAreRefused_byte :
    opField 0x0300000100#40 = (Instr.transferByte 0).opcode
      ∧ operandField 0x0300000100#40 &&& operandField (Instr.transferByte 0).rowMask ≠ 0
      ∧ (begunWithMove (.issue 0x0300000100)).mark = none ∧ (begunWithMove (.issue 0x0300000100)).exec = .idle
      ∧ (begunWithMove (.issue 0x0300000100)).host = .issue 0x0300000100 :: [] := ⟨by decide, by decide, rfl, rfl, rfl⟩

theorem test_witness_UnusedOperandBitsAreRefused_begin :
    opField 0x0100000001#40 = Instr.beginBus.opcode
      ∧ operandField 0x0100000001#40 &&& operandField Instr.beginBus.rowMask ≠ 0
      ∧ (placeWord 0x0100000001 State.reset).mark = none ∧ (placeWord 0x0100000001 State.reset).exec = .idle
      ∧ (placeWord 0x0100000001 State.reset).host = .issueAtOnce 0x0100000001 :: [] :=
  ⟨by decide, by decide, rfl, rfl, rfl⟩

/-- The five clauses: the widest argument, the first too wide, none taken, one too many, one missing. -/
theorem test_witness_AssemblyPlacesTheArgument :
    (CommandName.transferByte.argumentWidth? = some 8 ∧ 255 < 2 ^ 8) ∧ (CommandName.transferByte.argumentWidth? = some 8
      ∧ 2 ^ 8 ≤ 256) ∧ CommandName.beginBus.argumentWidth? = none := by decide

theorem test_witness_StepRunsDecodedCommand_issue :
    (begunWithMove (.issue 0x03000000A5)).mark = none ∧ (begunWithMove (.issue 0x03000000A5)).exec = .idle
      ∧ (begunWithMove (.issue 0x03000000A5)).host = .issue 0x03000000A5 :: []
      ∧ decode 0x03000000A5#40 = .command (.transferByte 0xA5) := ⟨rfl, rfl, rfl, by decide⟩

theorem test_witness_StepRunsDecodedCommand_issueAtOnce :
    (begunWithMove (.issueAtOnce 0x03000000A5)).mark = none ∧ (begunWithMove (.issueAtOnce 0x03000000A5)).exec = .idle
      ∧ (begunWithMove (.issueAtOnce 0x03000000A5)).host = .issueAtOnce 0x03000000A5 :: []
      ∧ decode 0x03000000A5#40 = .command (.transferByte 0xA5) := ⟨rfl, rfl, rfl, by decide⟩

theorem test_witness_BusyControllerRefusesCommands :
    duringDWord.exec ≠ .idle ∧ (placeWord 0x0200000000 duringDWord).exec ≠ .idle
      ∧ (placeWord 0x0200000000 duringDWord).mark = none
      ∧ (placeWord 0x0200000000 duringDWord).host = .issueAtOnce 0x0200000000 :: [] :=
  ⟨by decide, by decide, rfl, rfl⟩

theorem test_witness_MarkIsNeverCleared_refused :
    ({ begun .loopBack with mark := some (.refused .illegalCommand) } : State).mark
      = some (.refused .illegalCommand) := rfl

theorem test_witness_MarkIsNeverCleared_faulted :
    ({ begun .loopBack with mark := some (.faulted (.unwrittenRead (.transferByte 0) 2)) } : State).mark
      = some (.faulted (.unwrittenRead (.transferByte 0) 2)) := rfl

theorem test_witness_IdleBlockWaits :
    (begun .loopBack).mark = none ∧ (begun .loopBack).ready ∧ (begun .loopBack).host = [] := ⟨rfl, ⟨rfl, rfl⟩, rfl⟩

theorem test_witness_CommandIsItsMicroStepsOneByOne :
    (begun .loopBack).mark = none ∧ (begun .loopBack).hostWaits
      ∧ ∃ t, exec (.transferDWord 0xAABBCCDD) (begun .loopBack) = .next t :=
  ⟨rfl, fun _ _ h => (List.cons_ne_nil _ _) h.symm, test_next_of (by decide)⟩

theorem test_witness_RegisterAccesses :
    duringDWord.shift = .busy 0xDD true ∧ (State.reset.shift = .idle ∧ State.reset.rx = none)
      ∧ (afterExchange.shift = .idle ∧ afterExchange.rx = some 0x42) := ⟨rfl, ⟨rfl, rfl⟩, ⟨rfl, rfl⟩⟩

/-- A transfer in progress under this schedule. -/
def shifting (engine : Schedule) (live : Bool) : State :=
  { begun .loopBack with engine := engine, shift := .busy 0x55 live }

/-- The shift engine idle; the script's two entries; past the script the three rules, the open one for a transfer that is
not live. -/
theorem test_witness_CompletionStepOfShiftEngine :
    State.reset.shift = .idle
      ∧ ((shifting (hanging [false]) true).shift = .busy 0x55 true
        ∧ (shifting (hanging [false]) true).engine.script = false :: [])
      ∧ (shifting (hanging [true]) true).engine.script = true :: []
      ∧ ((shifting (completing []) true).engine.script = []
        ∧ (if true = true then (shifting (completing []) true).engine.live
            else (shifting (completing []) true).engine.dead) = .completes)
      ∧ ((shifting (hanging []) true).engine.script = []
        ∧ (if true = true then (shifting (hanging []) true).engine.live
            else (shifting (hanging []) true).engine.dead) = .never)
      ∧ ((shifting State.reset.engine false).engine.script = []
        ∧ (if false = true then (shifting State.reset.engine false).engine.live
            else (shifting State.reset.engine false).engine.dead) = .free) := by decide

/-- `roomy` at its bound: a schedule that makes every one of 48 polls wait still leaves a pace of 64 enough. -/
theorem test_roomy_at_bound : ({ begun .loopBack with engine := completing (List.replicate 48 false) } : State).roomy := by
  unfold State.roomy
  decide

theorem test_begun_roomy (peer : Peer) : (begun peer).roomy := by
  show 0 + 16 ≤ 64
  decide

theorem test_stopped_roomy (c v : Byte) : (stopped c v).roomy := by
  show 0 + 16 ≤ 64
  decide

theorem test_witness_BeginCommand_stopped :
    (stopped 0x03 0x80).params.legal = true ∧ (stopped 0x03 0x80).ready ∧ (stopped 0x03 0x80).roomy
      ∧ (stopped 0x03 0x80).running = false := ⟨by decide, ⟨rfl, rfl⟩, test_stopped_roomy _ _, rfl⟩

theorem test_witness_BeginCommand_running : (begun .loopBack).exec = .idle ∧ (begun .loopBack).running = true := ⟨rfl, rfl⟩

theorem test_witness_EndCommand_running :
    (begun .loopBack).params.legal = true ∧ (begun .loopBack).ready ∧ (begun .loopBack).roomy
      ∧ (begun .loopBack).running = true := ⟨by decide, ⟨rfl, rfl⟩, test_begun_roomy _, rfl⟩

theorem test_witness_EndCommand_stopped : State.reset.exec = .idle ∧ State.reset.running = false := ⟨rfl, rfl⟩

theorem test_witness_EndRestoresWhatBeginFound :
    State.reset.Inv ∧ State.reset.exec = .idle ∧ State.reset.roomy ∧ State.reset.running = false :=
  ⟨test_stopped_inv, rfl, test_stopped_roomy 0x00 0x00, rfl⟩

theorem test_witness_LifecycleFrame_begin : State.reset.shift = .idle ∧ ∃ t, exec .beginBus State.reset = .next t :=
  ⟨rfl, test_next_of (by decide)⟩

theorem test_witness_LifecycleFrame_end : (begun .loopBack).shift = .idle ∧ ∃ t, exec .endBus (begun .loopBack) = .next t :=
  ⟨rfl, test_next_of (by decide)⟩

/-- `begin` issued from reset, no micro-step taken yet. -/
def duringBegin : State := { State.reset with exec := .busy .beginBus 0 Locals.start }

theorem test_witness_LifecycleFrame_continues : duringBegin.Inv ∧ ∃ t, continues .beginBus duringBegin t := by
  refine ⟨⟨by decide, ?_, rfl⟩, ?_⟩
  · exact ⟨by decide, by decide, by decide, by decide, nofun, nofun⟩
  · obtain ⟨t, ht⟩ := test_next_of (o := step duringBegin) (by decide)
    exact ⟨t, ⟨_, _, rfl⟩, ht⟩

/-- `setDataMode` issued while Running, no micro-step taken yet. -/
def duringSetter : State := { begun .loopBack with exec := .busy (.setDataMode 3) 0 Locals.start }

theorem test_duringSetter_inv : duringSetter.Inv :=
  ⟨by decide, ⟨rfl, ⟨by decide, by decide, by decide⟩, nofun⟩, rfl⟩

theorem test_duringSetter_continues : ∃ t, continues (.setDataMode 3) duringSetter t := by
  obtain ⟨t, ht⟩ := test_next_of (o := step duringSetter) (by decide)
  exact ⟨t, ⟨_, _, rfl⟩, ht⟩

theorem test_witness_OnlyLifecycleCommandsWriteGateBits_continues :
    Instr.setDataMode 3 ≠ .beginBus ∧ Instr.setDataMode 3 ≠ .endBus ∧ duringSetter.Inv
      ∧ ∃ t, continues (.setDataMode 3) duringSetter t :=
  ⟨by decide, by decide, test_duringSetter_inv, test_duringSetter_continues⟩

theorem test_witness_ConfigurationFrame_continues :
    duringSetter.Inv ∧ ∃ t, continues (.setDataMode 3) duringSetter t :=
  ⟨test_duringSetter_inv, test_duringSetter_continues⟩

theorem test_witness_OnlyLifecycleCommandsWriteGateBits :
    Instr.setDataMode 3 ≠ .beginBus ∧ Instr.setDataMode 3 ≠ .endBus ∧ (begun .loopBack).params.legal = true
      ∧ ∃ t, exec (.setDataMode 3) (begun .loopBack) = .next t := ⟨by decide, by decide, by decide, test_next_of (by decide)⟩

theorem test_witness_OnlyLifecycleCommandsWriteGateBits_transfer :
    Instr.transferByte 0xA5 ≠ .beginBus ∧ Instr.transferByte 0xA5 ≠ .endBus ∧ (begun .loopBack).params.legal = true
      ∧ ∃ t, exec (.transferByte 0xA5) (begun .loopBack) = .next t := ⟨by decide, by decide, by decide, test_next_of (by decide)⟩

theorem test_witness_SetClockDividerCommand_running :
    (begun .loopBack).ready ∧ (begun .loopBack).roomy ∧ (begun .loopBack).running = true :=
  ⟨⟨rfl, rfl⟩, test_begun_roomy _, rfl⟩

theorem test_witness_SetClockDividerCommand_stopped : State.reset.exec = .idle ∧ State.reset.running = false := ⟨rfl, rfl⟩

theorem test_witness_SetDataModeCommand_running :
    (begun .loopBack).ready ∧ (begun .loopBack).roomy ∧ (begun .loopBack).running = true :=
  ⟨⟨rfl, rfl⟩, test_begun_roomy _, rfl⟩

theorem test_witness_SetDataModeCommand_stopped : State.reset.exec = .idle ∧ State.reset.running = false := ⟨rfl, rfl⟩

theorem test_witness_SetterReplacesOnlyItsField :
    (begun .loopBack).ready ∧ (begun .loopBack).roomy ∧ (begun .loopBack).running = true :=
  ⟨⟨rfl, rfl⟩, test_begun_roomy _, rfl⟩

theorem test_witness_ConfigurationFrame_clock :
    (begun .loopBack).shift = .idle ∧ ∃ t, exec (.setClockDivider 0xFC) (begun .loopBack) = .next t := ⟨rfl, test_next_of (by decide)⟩

theorem test_witness_ConfigurationFrame_mode :
    (begun .loopBack).shift = .idle ∧ ∃ t, exec (.setDataMode 0xFF) (begun .loopBack) = .next t := ⟨rfl, test_next_of (by decide)⟩

/-- The script completes the exchange after two polls although its rule past the script never does. -/
theorem test_witness_TransferByteExchangesOneByte_script :
    (begunHanging [false, false, true] .loopBack).ready ∧ (begunHanging [false, false, true] .loopBack).roomy
      ∧ (begunHanging [false, false, true] .loopBack).answers 1 := by
  refine ⟨⟨rfl, rfl⟩, ?_, .inl (by decide)⟩
  show 3 + 16 ≤ 64
  decide

/-- A transfer that is not live, let to complete. -/
theorem test_witness_TransferByteExchangesOneByte_not_live :
    resetAnswered.ready ∧ resetAnswered.roomy ∧ resetAnswered.answers 1 ∧ resetAnswered.liveNow = false :=
  ⟨⟨rfl, rfl⟩, test_stopped_roomy 0x00 0x00, .inr rfl, by decide⟩

theorem test_witness_TransferWordSendsHighByteFirst :
    (begunHanging [true, false, true] .loopBack).ready ∧ (begunHanging [true, false, true] .loopBack).roomy
      ∧ (begunHanging [true, false, true] .loopBack).answers 2 := by
  refine ⟨⟨rfl, rfl⟩, ?_, .inl (by decide)⟩
  show 3 + 16 ≤ 64
  decide

theorem test_witness_TransferDWordFollowsDwordOrder :
    (begunWith #v[0, 2, 1, 3] .loopBack).ready ∧ (begunWith #v[0, 2, 1, 3] .loopBack).roomy
      ∧ (begunWith #v[0, 2, 1, 3] .loopBack).answers 4 := ⟨⟨rfl, rfl⟩, test_begun_roomy .loopBack, .inr (by decide)⟩

theorem test_begunWithMove_hostWaits : (begunWithMove .reset).hostWaits := fun _ _ h => by cases h

theorem test_witness_ResponsivePeerLetsTransfersReturn :
    isTransfer (.transferDWord 0xAABBCCDD) = true ∧ (begunWithMove .reset).Inv ∧ (begunWithMove .reset).exec = .idle
      ∧ (begunWithMove .reset).running = true ∧ (begunWithMove .reset).mark = none ∧ (begunWithMove .reset).hostWaits
      ∧ (begunWithMove .reset).peerResponsive :=
  ⟨rfl, test_begun_inv, rfl, rfl, rfl, test_begunWithMove_hostWaits, trivial⟩

theorem test_witness_LoopBackReturnsTheValueSent :
    (begunWithMove .reset).Inv ∧ (begunWithMove .reset).exec = .idle ∧ (begunWithMove .reset).running = true
      ∧ (begunWithMove .reset).mark = none ∧ (begunWithMove .reset).hostWaits
      ∧ (begunWithMove .reset).peerResponsive ∧ (begunWithMove .reset).peer = .loopBack :=
  ⟨test_begun_inv, rfl, rfl, rfl, test_begunWithMove_hostWaits, trivial, rfl⟩

/-- A scripted peer with a byte for every wire position of `transferDWord`, one transfer having been completed before. -/
def begunScripted : State :=
  { begun (.scripted [0x10, 0x01, 0x02, 0x03, 0x04]) with history := [.wire 0x42 0x10 true] }

theorem test_witness_ScriptedPeerFillsTheResponse :
    begunScripted.ready ∧ begunScripted.roomy ∧ begunScripted.peer = .scripted [0x10, 0x01, 0x02, 0x03, 0x04]
      ∧ begunScripted.answers 1 ∧ begunScripted.answers 2 ∧ begunScripted.answers 4
      ∧ wireCount begunScripted.history = 1 ∧ [0x10#8, 0x01#8, 0x02#8, 0x03#8, 0x04#8][1 + 3]? = some 0x04#8 :=
  ⟨⟨rfl, rfl⟩, test_begun_roomy .loopBack, rfl, .inr (by decide), .inr (by decide), .inr (by decide), by decide, by decide⟩

/-- A byte of the list, and its end. -/
theorem test_witness_PeerAnswersByItsKind :
    [0x3C#8][wireCount []]? = some 0x3C#8 ∧ [0x3C#8].length ≤ wireCount [.wire 0x00 0x3C true] := by decide

/-- T18: no exchange completes; one poll before the wait. -/
theorem test_witness_UnansweredTransferWaitsAtItsPoll_first :
    isTransfer (.transferByte 0x01) = true ∧ (begunHanging [false] .loopBack).ready
      ∧ (begunHanging [false] .loopBack).roomy ∧ 0 ≤ (lastPosition (.transferByte 0x01)).val
      ∧ (begunHanging [false] .loopBack).stallsAfter 0 := by
  refine ⟨rfl, ⟨rfl, rfl⟩, ?_, by decide, by decide, by decide⟩
  show 1 + 16 ≤ 64
  decide

/-- Three exchanges of `transferDWord` complete, the last after a poll in vain, and the fourth does not. -/
theorem test_witness_UnansweredTransferWaitsAtItsPoll_last :
    isTransfer (.transferDWord 0xAABBCCDD) = true ∧ (begunHanging [true, true, false, true] .loopBack).ready
      ∧ (begunHanging [true, true, false, true] .loopBack).roomy
      ∧ 3 ≤ (lastPosition (.transferDWord 0xAABBCCDD)).val
      ∧ (begunHanging [true, true, false, true] .loopBack).stallsAfter 3 := by
  refine ⟨rfl, ⟨rfl, rfl⟩, ?_, by decide, by decide, by decide⟩
  show 4 + 16 ≤ 64
  decide

/-- From reset, where the schedule leaves everything open. -/
theorem test_witness_UnansweredTransferWaitsAtItsPoll_open :
    isTransfer (.transferByte 0x55) = true ∧ State.reset.ready ∧ State.reset.roomy
      ∧ 0 ≤ (lastPosition (.transferByte 0x55)).val ∧ State.reset.stallsAfter 0 :=
  ⟨rfl, ⟨rfl, rfl⟩, test_stopped_roomy 0x00 0x00, by decide, by decide, by decide⟩

/-- At the poll of a live transfer that the schedule leaves open. -/
def atOpenPoll : State :=
  { duringDWord with engine := State.reset.engine }

theorem test_witness_OpenPollIsRepeatedOrCompletes :
    isTransfer (.transferDWord 0xAABBCCDD) = true
      ∧ atOpenPoll.exec = .busy (.transferDWord 0xAABBCCDD) 1 Locals.start ∧ atOpenPoll.shift = .busy 0xDD true
      ∧ atOpenPoll.engine.script = [] ∧ atOpenPoll.engine.afterScript true = .free ∧ atOpenPoll.complete = false
      ∧ atOpenPoll.mark = none ∧ atOpenPoll.hostWaits :=
  ⟨rfl, rfl, rfl, rfl, rfl, by decide, rfl, fun _ _ h => (List.cons_ne_nil _ _) h.symm⟩

/-- The clause for the last wire position: the same poll of `transferByte`. -/
theorem test_witness_OpenPollIsRepeatedOrCompletes_last :
    2 ≤ atOpenPoll.pace ∧ lastPosition (.transferByte 0xDD) ≤ Locals.start.k := ⟨by decide, by decide⟩

/-- The clause for the positions before the last. -/
theorem test_witness_OpenPollIsRepeatedOrCompletes_before_last :
    2 ≤ atOpenPoll.pace ∧ Locals.start.k < lastPosition (.transferDWord 0xAABBCCDD)
      ∧ atOpenPoll.engine.afterScript atOpenPoll.liveNow ≠ .completes := ⟨by decide, by decide, by decide⟩

theorem test_witness_UnansweredPollNeverEnds :
    duringDWord.exec = .busy (.transferDWord 0xAABBCCDD) 1 Locals.start ∧ atPoll duringDWord = true
      ∧ neverCompletes duringDWord = true ∧ duringDWord.complete = false ∧ duringDWord.mark = none
      ∧ duringDWord.hostWaits :=
  ⟨rfl, by decide, by decide, by decide, rfl, fun _ _ h => (List.cons_ne_nil _ _) h.symm⟩

theorem test_witness_TransfersDoNotReadOrWriteRunning :
    isTransfer (.transferWord 0x1234) = true ∧ ∃ t, exec (.transferWord 0x1234) (begun .loopBack) = .next t :=
  ⟨rfl, test_next_of (by decide)⟩

theorem test_witness_TransfersDoNotReadClockOrMode :
    isTransfer (.transferWord 0x1234) = true ∧ (begun .loopBack).params.legal = true
      ∧ (0x5F#8).extractLsb' 4 4 = (begun .loopBack).ctrl.extractLsb' 4 4 := ⟨rfl, by decide, by decide⟩

theorem test_witness_TransferFrame :
    isTransfer (.transferByte 0xA5) = true ∧ ∃ t, exec (.transferByte 0xA5) (begun .loopBack) = .next t :=
  ⟨rfl, test_next_of (by decide)⟩

/-- A transfer that goes on past the poll of an exchange that never completes. -/
theorem test_duringDWord_continues : ∃ t, continues (.transferDWord 0xAABBCCDD) duringDWord t := by
  obtain ⟨t, ht⟩ := test_next_of (o := step duringDWord) (by decide)
  exact ⟨t, ⟨_, _, rfl⟩, ht⟩

theorem test_witness_TransferFrame_continues :
    isTransfer (.transferDWord 0xAABBCCDD) = true ∧ ∃ t, continues (.transferDWord 0xAABBCCDD) duringDWord t :=
  ⟨rfl, test_duringDWord_continues⟩

theorem test_witness_TransfersDoNotReadOrWriteRunning_continues :
    isTransfer (.transferDWord 0xAABBCCDD) = true
      ∧ duringDWord.exec = .busy (.transferDWord 0xAABBCCDD) 1 Locals.start
      ∧ ∃ t, continues (.transferDWord 0xAABBCCDD) duringDWord t := ⟨rfl, rfl, test_duringDWord_continues⟩

theorem test_witness_TransfersDoNotReadClockOrMode_continues :
    isTransfer (.transferDWord 0xAABBCCDD) = true ∧ duringDWord.params.legal = true
      ∧ (0x5F#8).extractLsb' 4 4 = duringDWord.ctrl.extractLsb' 4 4
      ∧ duringDWord.exec = .busy (.transferDWord 0xAABBCCDD) 1 Locals.start := ⟨rfl, by decide, by decide, rfl⟩

end Sys2Proof.Tests
end

section
/-! SUPPORT. What a micro-step of the controller keeps and what it adds to the history: the configuration, the receive
value and the history over every step (10_state.md R35, R38, R43). -/

namespace Sys2Proof.Machine

/-! ## What a micro-step keeps -/

/-- No micro-step of the controller touches the receive value, the mark, the configuration or the outside world. -/
theorem micro_keeps {s t : State} (h : micro s = .next t) :
    t.rx = s.rx ∧ t.mark = s.mark ∧ t.params = s.params ∧ t.peer = s.peer ∧ t.engine = s.engine
      ∧ t.choice = s.choice ∧ t.host = s.host ∧ t.pace = s.pace := by
  obtain ⟨-, rfl⟩ | ⟨cmd, mpc, loc, -, ⟨op, -, hop⟩ | ⟨-, rfl⟩⟩ := micro_cases h
  · simp
  · obtain ⟨m, l, ⟨_, _, rfl⟩ | rfl | ⟨_, rfl⟩ | rfl | ⟨_, rfl⟩ | ⟨_, rfl⟩ | ⟨_, -, rfl⟩ | ⟨_, -, -, rfl⟩⟩ :=
      runOp_cases hop <;> simp
  · simp

/-- A micro-step of the controller appends to the history, and no byte exchanged with the peer: only the shift engine
records those (R57). -/
theorem micro_history {s t : State} (h : micro s = .next t) :
    ∃ l, t.history = s.history ++ l ∧ wireCount l = 0 := by
  obtain ⟨-, rfl⟩ | ⟨cmd, mpc, loc, -, ⟨op, -, hop⟩ | ⟨-, rfl⟩⟩ := micro_cases h
  · exact ⟨[], by simp, rfl⟩
  · obtain ⟨m, l, ⟨_, _, rfl⟩ | rfl | ⟨_, rfl⟩ | rfl | ⟨_, rfl⟩ | ⟨_, rfl⟩ | ⟨_, -, rfl⟩ | ⟨_, -, -, rfl⟩⟩ :=
      runOp_cases hop
    case inr.inr.inr.inr.inr.inl => exact ⟨[], by simp, rfl⟩
    all_goals exact ⟨[_], rfl, rfl⟩
  · exact ⟨[_], rfl, rfl⟩

/-- The shift engine appends to the history: nothing, or the byte exchanged (R57). -/
theorem engineTurn_history (s : State) : s.history <+: (engineTurn s).history := by
  obtain ⟨e, h, -, -⟩ | ⟨tx, live, e, -, h, -, -⟩ := engineTurn_cases s <;> simp [h]

/-! ## The history over a step -/

/-- A micro-step of the machine appends to the history. -/
theorem tick_history {s t : State} (h : tick s = .next t) : s.history <+: t.history := by
  obtain ⟨l, hl, -⟩ := micro_history h
  exact (engineTurn_history s).trans ⟨l, hl.symm⟩

/-- Settles O8: every way a step can go but a reset is an issue, a response, a turn of the shift engine or a run of
micro-steps, and each of these appends. -/
theorem historyIsOnlyAppendedTo : Obligations.HistoryIsOnlyAppendedTo := by
  intro s t h
  have hT : ∀ u v : State, u.exec ≠ .idle → s.history <+: u.history → tick u = .next v → s.history <+: v.history :=
    fun _ _ _ hu hv => hu.trans (tick_history hv)
  obtain ⟨-, ⟨w, i, rest, -, -, hx⟩ | ⟨rest, hh, he, rfl⟩ | ⟨hb, u, hu, hs⟩ | ⟨-, rfl⟩⟩ := step_cases h
  · exact .inl (exec_keeps (P := fun v => s.history <+: v.history) hT (by simp) (by simp) hx)
  · exact .inr ⟨⟨rest, hh⟩, he, rfl⟩
  · exact .inl (settle_keeps (P := fun v => s.history <+: v.history) hT _ _ _ (tick_history hu) hs)
  · exact .inl (engineTurn_history s)

/-! ## The configuration over a step -/

/-- Settles O9: nothing a step is made of writes the parameters or the peer. -/
theorem stepKeepsConfiguration : Obligations.StepKeepsConfiguration := by
  intro s t h
  refine step_keeps (P := fun u => u.params = s.params ∧ u.peer = s.peer)
    ?engine ?micro (fun _ _ hu => hu) (fun _ _ _ hu => hu) (fun _ _ _ _ hu => hu) (fun _ hu => hu) ⟨rfl, rfl⟩ h
  case engine =>
    intro u hu
    obtain ⟨-, -, -, -, hparams, hpeer, -, -⟩ := engineTurn_keeps u
    rwa [hparams, hpeer]
  case micro =>
    intro u v _ hu hv
    obtain ⟨-, -, hparams, hpeer, -, -, -, -⟩ := micro_keeps hv
    rwa [hparams, hpeer]

/-! ## The receive value over a step -/

/-- Events that exchange no byte leave the byte last received as it is. -/
theorem lastReceived_append_of_no_wire (h : List Event) :
    ∀ l : List Event, wireCount l = 0 → lastReceived (h ++ l) = lastReceived h := by
  intro l
  induction l generalizing h with
  | nil => simp
  | cons e l ih =>
    intro hl
    obtain ⟨htail, hhead⟩ : wireCount l = 0 ∧ wireCount [e] = 0 := by
      simp only [wireCount, List.countP_cons, List.countP_nil] at hl ⊢
      omega
    have he : lastReceived (h ++ [e]) = lastReceived h := by
      cases e with
      | wire tx rx live => cases hhead
      | cmd _ => simp [lastReceived]
      | resp _ _ => simp [lastReceived]
      | regRead _ _ => simp [lastReceived]
      | regWrite _ _ => simp [lastReceived]
      | gpio _ _ => simp [lastReceived]
    rw [List.append_cons, ih _ htail, he]

/-- The byte last received is that of the latest exchange. -/
theorem lastReceived_append_wire (h : List Event) (tx rx : Byte) (live : Bool) :
    lastReceived (h ++ [.wire tx rx live]) = some rx := by
  simp [lastReceived]

/-- A state with the same receive value and a history longer by events that exchange no byte. -/
theorem rxInv_of_no_wire {s t : State} {l : List Event} (hs : s.rxInv) (hrx : t.rx = s.rx)
    (hh : t.history = s.history ++ l) (hl : wireCount l = 0) : t.rxInv := by
  rw [State.rxInv, hrx, hh, lastReceived_append_of_no_wire _ _ hl]
  exact hs

/-- The completion step stores in `rx` the byte it records (R57). -/
theorem engineTurn_rxInv {s : State} (hs : s.rxInv) : (engineTurn s).rxInv := by
  obtain ⟨e, h, -, -⟩ | ⟨tx, live, e, -, h, -, -⟩ := engineTurn_cases s
  · rw [h]; exact hs
  · rw [h]; exact (lastReceived_append_wire _ _ _ _).symm

/-- Settles O5: only the completion step and a reset write `rx`; every other part of a step records no exchange. -/
theorem receiveValueIsLastByteReceived : Obligations.ReceiveValueIsLastByteReceived := by
  intro s t hs h
  refine step_keeps (P := State.rxInv) (fun _ => engineTurn_rxInv) ?micro (fun _ _ hu => hu)
    (fun u i _ hu => rxInv_of_no_wire (l := [.cmd (encode i)]) hu rfl rfl rfl)
    (fun u i st _ hu => rxInv_of_no_wire (l := [.cmd (encode i), .resp st 0]) hu rfl (by simp) rfl)
    (fun _ _ => rfl) hs h
  case micro =>
    intro u v _ hu hv
    obtain ⟨l, hl, hw⟩ := micro_history hv
    exact rxInv_of_no_wire hu (micro_keeps hv).1 hl hw

/-! ## The reset state -/

/-- Settles O2: each part is read off the reset state. -/
theorem resetStateMeetsInvariants : Obligations.ResetStateMeetsInvariants := by
  have hready : State.reset.ready := ⟨rfl, rfl⟩
  have hinv : State.reset.Inv := ⟨by decide, ⟨rfl, rfl, rfl⟩, rfl⟩
  exact ⟨rfl, rfl, rfl, hready, hinv, rfl, rfl, rfl⟩

end Sys2Proof.Machine
end

section
/-! SUPPORT. What a command leaves unchanged, from its first micro-step to its last: the value a command writes back to a
register is the one it read just before (20_memory.md R68), so its micro-steps can be followed one at a time; then the
frames of `begin` and `end` and of the other commands (10_state.md R21 to R34, 40_lifecycle.md R100, R105). -/

namespace Sys2Proof.Machine

/-! ## The accesses to DATA and the position after an operation -/

/-- A `send` that answers a next state found the shift engine Idle and started a transfer (R55). -/
theorem runOp_send {cmd : Instr} {mpc : Nat} {loc : Locals} {s t : State} (h : runOp cmd mpc loc .send s = .next t) :
    ∃ b, s.shift = .idle
      ∧ t = ({ s with status := s.statusCleared, shift := .busy b s.liveNow }.record (.regWrite .data b)).moveTo
          cmd (mpc + 1) loc := by
  simp only [runOp] at h
  obtain ⟨_, _, _, e⟩ | ⟨hs, e⟩ := memWrite_data_cases (byteToSend s.params cmd loc.k) s
  · rw [e] at h; cases h
  · rw [e] at h; cases h; exact ⟨_, hs, rfl⟩

/-- A `receive` that answers a next state read DATA, and goes on after the loop or from its start (R128). -/
theorem runOp_receive {cmd : Instr} {mpc : Nat} {loc : Locals} {again : Nat} {s t : State}
    (h : runOp cmd mpc loc (.receive again) s = .next t) :
    ∃ r m l, (m = mpc + 1 ∨ m = again) ∧ t = (s.record (.regRead .data r)).moveTo cmd m l := by
  simp only [runOp] at h
  obtain ⟨_, _, _, e⟩ | ⟨_, _, e⟩ | ⟨r, hs, hr, e⟩ := memRead_data_cases s <;> rw [e] at h
  · cases h
  · cases h
  · simp only [afterRead] at h
    split at h <;> cases h
    · exact ⟨r, _, _, .inr rfl, rfl⟩
    · exact ⟨r, _, _, .inl rfl, rfl⟩

/-- An operation leaves the controller with the same command: at the next position, or, from within the loop of
`XferByte`, at the poll again or at the start of the loop (R37, R128). -/
theorem runOp_exec {cmd : Instr} {mpc : Nat} {loc : Locals} {op : MicroOp} {s t : State}
    (h : runOp cmd mpc loc op s = .next t) :
    ∃ m l, t.exec = .busy cmd m l ∧ (m = mpc + 1 ∨ (op = .poll ∧ m = mpc) ∨ op = .receive m) := by
  cases op with
  | poll =>
    cases h
    refine ⟨_, _, rfl, ?_⟩
    split
    · exact .inl rfl
    · exact .inr (.inl ⟨rfl, rfl⟩)
  | send => obtain ⟨b, -, rfl⟩ := runOp_send h; exact ⟨_, _, rfl, .inl rfl⟩
  | receive again =>
    obtain ⟨r, m, l, rfl | rfl, rfl⟩ := runOp_receive h
    · exact ⟨_, _, rfl, .inl rfl⟩
    · exact ⟨_, _, rfl, .inr (.inr rfl)⟩
  | _ => cases h; exact ⟨_, _, rfl, .inl rfl⟩

/-! ## What stands in the pseudocode -/

/-- Which commands an operation can belong to, at which position and with what it computes, as far as the frames depend
on it. -/
def MicroOp.standsAt (cmd : Instr) (m : Nat) : MicroOp → Prop
  | .writeCtrl f =>
    (cmd = .beginBus ∧ m = 5 ∧ f = ctrlBegun) ∨ (cmd = .endBus ∧ m = 1 ∧ f = ctrlEnded)
      ∨ (∃ d, cmd = .setClockDivider d ∧ m = 1 ∧ f = fun _ c => ctrlWithClock c d)
      ∨ (∃ d, cmd = .setDataMode d ∧ m = 1 ∧ f = fun _ c => ctrlWithMode c d)
  | .writeStatus f => (cmd = .beginBus ∧ m = 7 ∧ f = statusBegun) ∨ (cmd = .endBus ∧ m = 3 ∧ f = statusEnded)
  | .setRunning _ => cmd = .beginBus ∨ cmd = .endBus
  | .send => isTransfer cmd = true
  | .receive again => again = 0
  | _ => True

/-- Every operation of a command's pseudocode stands where it belongs. -/
theorem program_standsAt {cmd : Instr} {m : Nat} {op : MicroOp} (h : (program cmd)[m]? = some op) :
    op.standsAt cmd m := by
  have hall : ∀ p ∈ (program cmd).zipIdx, p.1.standsAt cmd p.2 := by
    cases cmd <;>
      simp [program, beginProgram, endProgram, transferByteProgram, transferWordProgram, transferDWordProgram,
        xferProgram, setClockDividerProgram, setDataModeProgram, MicroOp.standsAt, isTransfer]
  exact hall (op, m) (List.mk_mem_zipIdx_iff_getElem?.2 h)

/-- `b` may stand just after `a`: a register is written back only just after it was read. -/
def MicroOp.precedes (a : MicroOp) : MicroOp → Prop
  | .writeCtrl _ => a = .readCtrl
  | .writeStatus _ => a = .readStatus
  | _ => True

/-- In every command's pseudocode each write back stands just after its read, so none stands first: `poll` before the
list stands for any operation that reads for no write. -/
theorem program_isChain (cmd : Instr) : (MicroOp.poll :: program cmd).IsChain MicroOp.precedes := by
  cases cmd <;>
    simp [program, beginProgram, endProgram, transferByteProgram, transferWordProgram, transferDWordProgram, xferProgram,
      setClockDividerProgram, setDataModeProgram, MicroOp.precedes]

/-- The operation a command reaches at the next position may stand after the one before. -/
theorem program_precedes {cmd : Instr} {m : Nat} {a b : MicroOp} (ha : (program cmd)[m]? = some a)
    (hb : (program cmd)[m + 1]? = some b) : a.precedes b := by
  obtain ⟨hm, rfl⟩ := List.getElem?_eq_some_iff.1 ha
  obtain ⟨hn, rfl⟩ := List.getElem?_eq_some_iff.1 hb
  exact (List.isChain_iff_getElem.1 (program_isChain cmd).tail) m hn

/-- The first operation of a command writes nothing back. -/
theorem program_precedes_zero {cmd : Instr} {b : MicroOp} (hb : (program cmd)[0]? = some b) :
    MicroOp.poll.precedes b := by
  obtain ⟨hn, rfl⟩ := List.getElem?_eq_some_iff.1 hb
  exact (List.isChain_iff_getElem.1 (program_isChain cmd)) 0 (by simpa using hn)

/-! ## The value written back is the register's -/

/-- What has been read for the operation `op` is still in its register (R68); of STATUS, outside COMPLETE, which the
shift engine may set meanwhile and a write does not store (R54, R57). -/
def MicroOp.readFresh (loc : Locals) (s : State) : MicroOp → Prop
  | .writeCtrl _ => loc.c = s.ctrl
  | .writeStatus _ => ∀ j, j ≠ s.params.completeBit.val → loc.s.getLsbD j = s.status.getLsbD j
  | _ => True

/-- What the operation at the controller's position writes back, it read from the register as it still is. -/
def State.readBack (s : State) : Prop :=
  ∀ cmd mpc loc op, s.exec = .busy cmd mpc loc → (program cmd)[mpc]? = some op → op.readFresh loc s

theorem readBack_of_idle {s : State} (h : s.exec = .idle) : s.readBack := by
  intro _ _ _ _ hx
  cases h.symm.trans hx

/-- After an operation that reads for no write, only one that writes nothing back may follow. -/
theorem readFresh_of_poll_precedes {b : MicroOp} (loc : Locals) (s : State) (h : MicroOp.poll.precedes b) :
    b.readFresh loc s := by
  cases b <;> trivial

/-- After an operation of a command, what the next one writes back is the register's: it was read by the operation. -/
theorem runOp_readBack {cmd : Instr} {mpc : Nat} {loc : Locals} {a : MicroOp} {s t : State}
    (ha : (program cmd)[mpc]? = some a) (h : runOp cmd mpc loc a s = .next t) : t.readBack := by
  intro cmd' m' l' b hx hb
  obtain ⟨m, l, ht, hm⟩ := runOp_exec h
  rw [ht] at hx
  injection hx with hcmd hmpc hloc
  subst hcmd hmpc hloc
  obtain rfl | ⟨rfl, rfl⟩ | rfl := hm
  · have hab := program_precedes ha hb
    cases b with
    | writeCtrl f => cases hab; cases h; cases ht; rfl
    | writeStatus f => cases hab; cases h; cases ht; exact fun _ _ => rfl
    | _ => trivial
  · cases ha.symm.trans hb
    trivial
  · obtain rfl : m = 0 := program_standsAt ha
    exact readFresh_of_poll_precedes l t (program_precedes_zero hb)

/-- After every micro-step of the controller, what the next one writes back is the register's (R68). -/
theorem micro_readBack {s t : State} (h : micro s = .next t) : t.readBack := by
  obtain ⟨hx, rfl⟩ | ⟨cmd, mpc, loc, -, ⟨op, hop, hr⟩ | ⟨-, rfl⟩⟩ := micro_cases h
  · exact readBack_of_idle hx
  · exact runOp_readBack hop hr
  · exact readBack_of_idle rfl

/-- A command just issued is at an operation that writes nothing back. -/
theorem issued_readBack (i : Instr) (s : State) : (issued i s).readBack := by
  intro cmd mpc loc op hx hop
  cases hx
  exact readFresh_of_poll_precedes _ _ (program_precedes_zero hop)

/-- The shift engine writes neither CTRL nor, outside COMPLETE, STATUS (R57). -/
theorem engineTurn_readBack {s : State} (h : s.readBack) : (engineTurn s).readBack := by
  intro cmd mpc loc op hx hop
  have hfresh := h cmd mpc loc op (by simpa using hx) hop
  obtain ⟨e, he, -, -⟩ | ⟨tx, live, e, -, he, -, -⟩ := engineTurn_cases s <;> rw [he]
  · exact hfresh
  · cases op with
    | writeCtrl f => exact hfresh
    | writeStatus f =>
      intro j hj
      have hj' : j ≠ s.params.completeBit.val := hj
      rw [hfresh j hj', completeTransfer_status, getLsbD_statusCompleted]
      simp [hj']
    | _ => trivial

/-- In a state of the invariant, what the command in progress writes back is the register's. -/
theorem readBack_of_lifecycleInv {s : State} (h : s.lifecycleInv) : s.readBack := by
  intro cmd mpc loc op hx hop
  have hat := program_standsAt hop
  unfold State.lifecycleInv at h
  rw [hx] at h
  cases op with
  | writeCtrl f =>
    obtain ⟨rfl, rfl, -⟩ | ⟨rfl, rfl, -⟩ | ⟨d, rfl, rfl, -⟩ | ⟨d, rfl, rfl, -⟩ := hat
    · obtain ⟨-, -, -, -, hc, -⟩ := h
      exact hc rfl
    · obtain ⟨-, -, -, -, hc, -⟩ := h
      exact hc rfl
    · obtain ⟨-, -, hc⟩ := h
      exact hc rfl
    · obtain ⟨-, -, hc⟩ := h
      exact hc rfl
  | writeStatus f =>
    intro j _
    obtain ⟨rfl, rfl, -⟩ | ⟨rfl, rfl, -⟩ := hat <;> obtain ⟨-, -, -, -, -, hs⟩ := h <;> rw [hs rfl]
  | _ => trivial

/-! ## The frame of a command -/

/-- No command but `i` is in progress. -/
def State.executesOnly (i : Instr) (s : State) : Prop := ∀ cmd mpc loc, s.exec = .busy cmd mpc loc → cmd = i

theorem executesOnly_of_idle {s : State} (i : Instr) (h : s.exec = .idle) : s.executesOnly i := by
  intro _ _ _ hx
  cases h.symm.trans hx

theorem executesOnly_of_busy {s : State} {i : Instr} {mpc : Nat} {loc : Locals} (h : s.exec = .busy i mpc loc) :
    s.executesOnly i := by
  intro _ _ _ hx
  cases h.symm.trans hx
  rfl

/-- A micro-step of the controller goes on with the command in progress or ends it. -/
theorem micro_executesOnly {i : Instr} {s t : State} (hs : s.executesOnly i) (h : micro s = .next t) :
    t.executesOnly i := by
  obtain ⟨-, rfl⟩ | ⟨cmd, mpc, loc, hx, ⟨op, -, hr⟩ | ⟨-, rfl⟩⟩ := micro_cases h
  · exact hs
  · obtain ⟨m, l, ht, -⟩ := runOp_exec hr
    obtain rfl := hs cmd mpc loc hx
    exact executesOnly_of_busy ht
  · exact executesOnly_of_idle i rfl

section Frame
variable {α : Type} {view : State → α} {i : Instr} {s : State}
  (hE : ∀ u, view u = view s → view (engineTurn u) = view s)
  (hO : ∀ u t mpc loc op, (program i)[mpc]? = some op → op.readFresh loc u → view u = view s →
    runOp i mpc loc op u = .next t → view t = view s)
  (hR : ∀ u st v, view u = view s → view (respond st v u) = view s)
include hE hO hR

/-- A micro-step of a command leaves of the state what the shift engine, the command's operations and its response leave
of it. -/
theorem tick_keeps_view (u t : State) (hu : view u = view s ∧ u.readBack ∧ u.executesOnly i) (h : tick u = .next t) :
    view t = view s ∧ t.readBack ∧ t.executesOnly i := by
  obtain ⟨hview, hread, honly⟩ := hu
  have hread' := engineTurn_readBack hread
  have honly' : (engineTurn u).executesOnly i := by simpa [State.executesOnly] using honly
  refine ⟨?_, micro_readBack h, micro_executesOnly honly' h⟩
  obtain ⟨-, rfl⟩ | ⟨cmd, mpc, loc, hx, hstep⟩ := micro_cases h
  · exact hE u hview
  · obtain rfl := honly' cmd mpc loc hx
    obtain ⟨op, hop, hr⟩ | ⟨-, rfl⟩ := hstep
    · exact hO _ _ _ _ _ hop (hread' _ _ _ _ hx hop) (hE u hview) hr
    · exact hR _ _ _ (hE u hview)

/-- What the shift engine, a command's operations, its issue and its response leave of a state, the command leaves. -/
theorem exec_keeps_view {t : State} (hI : view (issued i s) = view s) (h : exec i s = .next t) : view t = view s :=
  (exec_keeps (P := fun u => view u = view s ∧ u.readBack ∧ u.executesOnly i)
    (fun u t _ => tick_keeps_view hE hO hR u t)
    (fun _ => ⟨hI, issued_readBack i s, executesOnly_of_busy rfl⟩)
    (fun st _ => ⟨hR _ st 0 hI, readBack_of_idle rfl, executesOnly_of_idle i rfl⟩) h).1

/-- What the shift engine, a command's operations and its response leave of a state of the invariant, a step that goes on
with the command leaves. -/
theorem continues_keeps_view {t : State} (hs : s.Inv) (h : continues i s t) : view t = view s := by
  obtain ⟨⟨mpc, loc, hx⟩, -⟩ := id h
  obtain ⟨-, hlife, -⟩ := hs
  exact (continues_keeps (P := fun u => view u = view s ∧ u.readBack ∧ u.executesOnly i)
    (fun u t _ => tick_keeps_view hE hO hR u t)
    ⟨rfl, readBack_of_lifecycleInv hlife, executesOnly_of_busy hx⟩ h).1

/-- What these leave of a state, the command leaves, where it is executed and in a step that goes on with it. -/
theorem command_keeps_view {t : State} (hI : view (issued i s) = view s)
    (h : exec i s = .next t ∨ (s.Inv ∧ continues i s t)) : view t = view s := by
  obtain hx | ⟨hs, hx⟩ := h
  · exact exec_keeps_view hE hO hR hI hx
  · exact continues_keeps_view hE hO hR hs hx

end Frame

/-! ## The frame of `begin` and `end` -/

/-- What `begin` and `end` leave of a state: all but the history, `exec`, `running` and the gate bits. -/
def State.outsideLifecycle (s : State) : State :=
  { s with
    running := false
    ctrl := s.ctrl &&& ~~~(s.params.EN ||| s.params.MS)
    status := s.status &&& ~~~s.params.HS
    exec := .idle
    history := [] }

theorem ctrlBegun_outside (p : Config.Params) (c : Byte) :
    ctrlBegun p c &&& ~~~(p.EN ||| p.MS) = c &&& ~~~(p.EN ||| p.MS) := by
  ext j
  simp only [ctrlBegun, BitVec.getElem_and, BitVec.getElem_or, BitVec.getElem_not]
  cases p.EN[j] <;> cases p.MS[j] <;> simp

theorem ctrlEnded_outside (p : Config.Params) (c : Byte) :
    ctrlEnded p c &&& ~~~(p.EN ||| p.MS) = c &&& ~~~(p.EN ||| p.MS) := by
  simp [ctrlEnded, BitVec.and_assoc]

/-- A write of STATUS that stores the register's own bits outside HISPEED leaves them. -/
theorem statusWritten_outside {s : State} {v : Byte}
    (h : ∀ j, j ≠ s.params.completeBit.val → j ≠ s.params.hispeedBit.val → v.getLsbD j = s.status.getLsbD j) :
    s.statusWritten v &&& ~~~s.params.HS = s.status &&& ~~~s.params.HS := by
  refine byte_ext fun j hj => ?_
  simp only [BitVec.getLsbD_and, BitVec.getLsbD_not, Config.Params.HS, getLsbD_bitMask, getLsbD_statusWritten]
  by_cases hh : j = s.params.hispeedBit.val
  · simp [hh]
  · split
    · rfl
    · rename_i hc
      rw [h j hc hh]

theorem outsideLifecycle_ctrl {s : State} {v : Byte}
    (h : v &&& ~~~(s.params.EN ||| s.params.MS) = s.ctrl &&& ~~~(s.params.EN ||| s.params.MS)) :
    { s with ctrl := v }.outsideLifecycle = s.outsideLifecycle := by
  simp [State.outsideLifecycle, h]

theorem outsideLifecycle_status {s : State} {v : Byte} (h : v &&& ~~~s.params.HS = s.status &&& ~~~s.params.HS) :
    { s with status := v }.outsideLifecycle = s.outsideLifecycle := by
  simp [State.outsideLifecycle, h]

/-- No operation of `begin` or `end` writes anything else: neither sends, and what is written back to a register is what
was read from it, but for the gate bits (R100, R105). -/
theorem runOp_outsideLifecycle {i : Instr} (hi : i = .beginBus ∨ i = .endBus) {s t : State} {mpc : Nat} {loc : Locals}
    {op : MicroOp} (hop : (program i)[mpc]? = some op) (hread : op.readFresh loc s)
    (h : runOp i mpc loc op s = .next t) : t.outsideLifecycle = s.outsideLifecycle := by
  have hat := program_standsAt hop
  cases op with
  | writeCtrl f =>
    have hf : f s.params s.ctrl &&& ~~~(s.params.EN ||| s.params.MS) = s.ctrl &&& ~~~(s.params.EN ||| s.params.MS) := by
      obtain ⟨-, -, rfl⟩ | ⟨-, -, rfl⟩ | ⟨_, rfl, -⟩ | ⟨_, rfl, -⟩ := hat
      · exact ctrlBegun_outside _ _
      · exact ctrlEnded_outside _ _
      · simp at hi
      · simp at hi
    cases h
    rw [show loc.c = s.ctrl from hread]
    exact outsideLifecycle_ctrl hf
  | writeStatus f =>
    cases h
    refine outsideLifecycle_status (v := s.statusWritten (f s.params loc.s)) (statusWritten_outside fun j hc hh => ?_)
    obtain ⟨-, -, rfl⟩ | ⟨-, -, rfl⟩ := hat
    · rw [getLsbD_statusBegun, decide_eq_false hh, Bool.or_false, hread j hc]
    · rw [getLsbD_statusEnded, decide_eq_false hh, Bool.not_false, Bool.and_true, hread j hc]
  | send => obtain rfl | rfl := hi <;> cases hat
  | receive again => obtain ⟨r, m, l, -, rfl⟩ := runOp_receive h; rfl
  | _ => cases h; rfl

/-- `begin` and `end`, executed or going on, with no transfer in progress. -/
theorem outsideLifecycle_of_begin_end {i : Instr} (hi : i = .beginBus ∨ i = .endBus) {s t : State}
    (h : (s.shift = .idle ∧ exec i s = .next t) ∨ (s.Inv ∧ continues i s t)) :
    t.outsideLifecycle = s.outsideLifecycle := by
  have hshift : s.shift = .idle := by
    obtain ⟨hs, -⟩ | ⟨⟨-, -, htransfer⟩, ⟨mpc, loc, hx⟩, -⟩ := h
    · exact hs
    · unfold State.transferInv at htransfer
      rw [hx] at htransfer
      obtain rfl | rfl := hi <;> exact htransfer
  refine command_keeps_view (view := State.outsideLifecycle) ?engine ?op (fun _ _ _ hu => hu) rfl (h.imp_left And.right)
  case engine =>
    intro u hu
    have hkept : u.outsideLifecycle.shift = s.outsideLifecycle.shift := by rw [hu]
    have hidle : u.shift = .idle := hkept.trans hshift
    rwa [engineTurn_of_idle hidle]
  case op =>
    intro u v mpc loc op hop hread hu hv
    exact (runOp_outsideLifecycle hi hop hread hv).trans hu

/-- Settles O28: each field of the frame is read off the part of the state that `begin` and `end` leave. -/
theorem lifecycleFrame : Obligations.LifecycleFrame := by
  intro i s t hi h
  have hview := outsideLifecycle_of_begin_end hi h
  simp only [State.outsideLifecycle, State.mk.injEq, true_and] at hview
  obtain ⟨hctrl, hstatus, hrx, hshift, hmark, hparams, houtside⟩ := hview
  rw [hparams] at hctrl hstatus
  exact ⟨hctrl, hstatus, hrx, hshift, hmark, hparams, houtside⟩

/-! ## The gate bits under the other commands -/

/-- What the commands other than `begin` and `end` leave of a state: the lifecycle flag and the gate bits, at the
positions the parameters give them. -/
def State.gateView (s : State) : Bool × Bool × Bool × Bool × Config.Params :=
  (s.running, s.enable, s.master, s.hispeed, s.params)

theorem gateView_eq_iff {s t : State} :
    t.gateView = s.gateView ↔ t.running = s.running ∧ t.enable = s.enable ∧ t.master = s.master
      ∧ t.hispeed = s.hispeed ∧ t.params = s.params := by
  simp [State.gateView]

/-- A write of CTRL that stores the register's own bits [7:4] leaves ENABLE and MASTER, which stand there (R7). -/
theorem gateView_ctrl {s : State} {v : Byte} (hp : s.params.legal = true)
    (h : ∀ j, 4 ≤ j → v.getLsbD j = s.ctrl.getLsbD j) : { s with ctrl := v }.gateView = s.gateView := by
  obtain ⟨hen, hms, -⟩ := (Config.Params.legal_iff _).1 hp
  simp only [State.gateView, State.enable_eq, State.master_eq, State.hispeed_eq, h _ hen, h _ hms]

/-- A change of COMPLETE leaves HISPEED, which stands elsewhere (R7). -/
theorem gateView_status {s : State} {v : Byte} (hp : s.params.legal = true)
    (h : ∀ j, j ≠ s.params.completeBit.val → v.getLsbD j = s.status.getLsbD j) :
    { s with status := v }.gateView = s.gateView := by
  obtain ⟨-, -, hhs⟩ := legal_positions hp
  simp only [State.gateView, State.enable_eq, State.master_eq, State.hispeed_eq, h _ hhs]

theorem engineTurn_gateView {s : State} (hp : s.params.legal = true) : (engineTurn s).gateView = s.gateView := by
  obtain ⟨e, he, -, -⟩ | ⟨tx, live, e, -, he, -, -⟩ := engineTurn_cases s <;> rw [he]
  · rfl
  · refine gateView_status (v := s.statusCompleted) hp fun j hj => ?_
    rw [getLsbD_statusCompleted, decide_eq_false hj, Bool.or_false]

/-- An operation of another command than `begin` and `end` writes the lifecycle flag and the gate bits not at all or as
they are (R55, R150, R155). -/
theorem runOp_gateView {i : Instr} (hb : i ≠ .beginBus) (he : i ≠ .endBus) {s t : State} {mpc : Nat} {loc : Locals}
    {op : MicroOp} (hp : s.params.legal = true) (hop : (program i)[mpc]? = some op) (hread : op.readFresh loc s)
    (h : runOp i mpc loc op s = .next t) : t.gateView = s.gateView := by
  have hat := program_standsAt hop
  cases op with
  | writeCtrl f =>
    cases h
    refine gateView_ctrl (v := f s.params loc.c) hp fun j hj => ?_
    rw [show loc.c = s.ctrl from hread]
    obtain ⟨hx, -⟩ | ⟨hx, -⟩ | ⟨d, -, -, rfl⟩ | ⟨d, -, -, rfl⟩ := hat
    · exact absurd hx hb
    · exact absurd hx he
    · rw [getLsbD_ctrlWithClock, if_neg (by omega)]
    · rw [getLsbD_ctrlWithMode, if_neg (by omega)]
  | writeStatus f =>
    obtain ⟨hx, -⟩ | ⟨hx, -⟩ := hat
    · exact absurd hx hb
    · exact absurd hx he
  | setRunning v =>
    obtain hx | hx := hat
    · exact absurd hx hb
    · exact absurd hx he
  | send =>
    obtain ⟨b, -, rfl⟩ := runOp_send h
    refine gateView_status (v := s.statusCleared) hp fun j hj => ?_
    rw [getLsbD_statusCleared, decide_eq_false hj, Bool.not_false, Bool.and_true]
  | receive again => obtain ⟨r, m, l, -, rfl⟩ := runOp_receive h; rfl
  | _ => cases h; rfl

/-- Settles O29: the shift engine and every operation of such a command leave the flag and the gate bits. -/
theorem onlyLifecycleCommandsWriteGateBits : Obligations.OnlyLifecycleCommandsWriteGateBits := by
  intro i s t hb he h
  have hlegal : s.params.legal = true := by
    obtain ⟨hp, -⟩ | ⟨⟨hp, -⟩, -⟩ := h <;> exact hp
  have hkept : ∀ u : State, u.gateView = s.gateView → u.params.legal = true := by
    intro u hu
    obtain ⟨-, -, -, -, hparams⟩ := gateView_eq_iff.1 hu
    rwa [hparams]
  have hview : t.gateView = s.gateView := by
    refine command_keeps_view (view := State.gateView) ?engine ?op (fun _ _ _ hu => hu) rfl (h.imp_left And.right)
    case engine =>
      intro u hu
      exact (engineTurn_gateView (hkept u hu)).trans hu
    case op =>
      intro u v mpc loc op hop hread hu hv
      exact (runOp_gateView hb he (hkept u hu) hop hread hv).trans hu
  obtain ⟨hrunning, henable, hmaster, hhispeed, -⟩ := gateView_eq_iff.1 hview
  exact ⟨hrunning, henable, hmaster, hhispeed⟩

end Sys2Proof.Machine
end

section
/-! SUPPORT. The register space, the shift engine and the peer, each by its cases (20_memory.md R52 to R58); the host's
word and the step that takes it (R66, R80); the exchanges and the writes of DATA that started them (R56, R70). -/

namespace Sys2Proof.Machine

/-! ## The accesses to the registers -/

/-- A read of DATA while a transfer is in progress faults (R53). -/
theorem memRead_data_of_busy {s : State} {tx : Byte} {live : Bool} (hs : s.shift = .busy tx live) :
    memRead .data s = .error .dataAccessWhileBusy := by
  simp [memRead, readValue, readData, hs]

/-- A read of DATA before any transfer has completed faults (R53). -/
theorem memRead_data_of_unwritten {s : State} (hs : s.shift = .idle) (hr : s.rx = none) :
    memRead .data s = .error .unwrittenRead := by
  simp [memRead, readValue, readData, hs, hr]

/-- A write of DATA while a transfer is in progress faults (R55). -/
theorem memWrite_data_of_busy {s : State} {tx : Byte} {live : Bool} (b : Byte) (hs : s.shift = .busy tx live) :
    memWrite .data b s = .error .dataAccessWhileBusy := by
  simp [memWrite, writeValue, writeData, hs]

/-- Settles O21: CTRL and STATUS are read and written in every state; DATA by the state of the shift engine and `rx`. -/
theorem registerAccesses : Obligations.RegisterAccesses := by
  intro s v
  refine ⟨memRead_ctrl s, memWrite_ctrl v s, memRead_status s, memWrite_status v s, ?busy, ?unwritten, ?read, ?write⟩
  case busy => exact fun tx live hs => ⟨memRead_data_of_busy hs, memWrite_data_of_busy v hs⟩
  case unwritten => exact memRead_data_of_unwritten
  case read => exact fun r => memRead_data_of_idle
  case write => exact memWrite_data_of_idle v

/-! ## The opportunities of the shift engine -/

/-- The script lets this opportunity pass (log 3). -/
theorem engineTurn_of_passed {s : State} {tx : Byte} {live : Bool} {rest : List Bool} (hs : s.shift = .busy tx live)
    (he : s.engine.script = false :: rest) : engineTurn s = { s with engine := { s.engine with script := rest } } := by
  simp [engineTurn, hs, he]

/-- The script completes the transfer at this opportunity (R57, log 3). -/
theorem engineTurn_of_taken {s : State} {tx : Byte} {live : Bool} {rest : List Bool} (hs : s.shift = .busy tx live)
    (he : s.engine.script = true :: rest) :
    engineTurn s = completeTransfer tx live { s with engine := { s.engine with script := rest } } := by
  simp [engineTurn, hs, he]

/-- Past the script, a schedule that completes transfers of this kind (R57, R59). -/
theorem engineTurn_of_completes {s : State} {tx : Byte} {live : Bool} (hs : s.shift = .busy tx live)
    (he : s.engine.script = []) (hc : s.engine.afterScript live = .completes) :
    engineTurn s = completeTransfer tx live s := by
  simp [engineTurn, hs, he, hc]

/-- Past the script, a schedule that lets transfers of this kind hang (R124, R177). -/
theorem engineTurn_of_never {s : State} {tx : Byte} {live : Bool} (hs : s.shift = .busy tx live)
    (he : s.engine.script = []) (hc : s.engine.afterScript live = .never) : engineTurn s = s := by
  simp [engineTurn, hs, he, hc]

/-- Whether a transfer in progress completes at this opportunity (R57, log 3). -/
def Schedule.completesNow (live : Bool) (e : Schedule) : Bool :=
  match e.script with
  | taken :: _ => taken
  | [] =>
    match e.afterScript live with
    | .completes => true
    | .never => false
    | .free => Config.completes live e.opportunity

/-- The schedule after this opportunity (log 3). -/
def Schedule.next (live : Bool) (e : Schedule) : Schedule :=
  match e.script with
  | _ :: rest => { e with script := rest }
  | [] =>
    match e.afterScript live with
    | .completes => e
    | .never => e
    | .free => e.nextOpportunity

/-- An opportunity of the shift engine with a transfer in progress: the schedule moves on, and decides whether the
completion step is taken (R57). -/
theorem engineTurn_of_busy {s : State} {tx : Byte} {live : Bool} (hs : s.shift = .busy tx live) :
    engineTurn s
      = if s.engine.completesNow live then completeTransfer tx live { s with engine := s.engine.next live }
        else { s with engine := s.engine.next live } := by
  cases he : s.engine.script with
  | cons taken rest =>
    cases taken with
    | false => simp [engineTurn_of_passed hs he, Schedule.completesNow, Schedule.next, he]
    | true => simp [engineTurn_of_taken hs he, Schedule.completesNow, Schedule.next, he]
  | nil =>
    cases hc : s.engine.afterScript live with
    | completes => simp [engineTurn_of_completes hs he hc, Schedule.completesNow, Schedule.next, he, hc]
    | never => simp [engineTurn_of_never hs he hc, Schedule.completesNow, Schedule.next, he, hc]
    | free => simp [engineTurn_of_free hs he hc, freeOpportunity, Schedule.completesNow, Schedule.next, he, hc]

/-- Settles O22: one lemma per entry of the script and per rule past it. -/
theorem completionStepOfShiftEngine : Obligations.CompletionStepOfShiftEngine := by
  refine ⟨fun s => engineTurn_of_idle, fun s tx live hs => ?_⟩
  refine ⟨?passed, ?taken, engineTurn_of_completes hs, engineTurn_of_never hs, ?free⟩
  case passed => exact fun rest => engineTurn_of_passed hs
  case taken => exact fun rest => engineTurn_of_taken hs
  case free => exact fun he hf => engineTurn_of_free hs he hf

/-! ## The peer -/

/-- The scripted peer answers the entry of its list that the transfers completed since reset have reached (R58). -/
theorem peerAnswer_scripted_of_getElem? {bytes : List Byte} {h : List Event} {r : Byte} (tx : Byte) (choice : Nat)
    (hr : bytes[wireCount h]? = some r) : peerAnswer (.scripted bytes) h tx choice = r := by
  simp [peerAnswer, List.getD_eq_getElem?_getD, hr]

/-- Settles O23: each kind of peer by its definition, the scripted one by whether its list reaches so far. -/
theorem peerAnswersByItsKind : Obligations.PeerAnswersByItsKind := by
  refine fun h tx c => ⟨rfl, rfl, fun bytes => ⟨fun r => peerAnswer_scripted_of_getElem? tx c, fun hlen => ?_⟩⟩
  simp [peerAnswer, List.getD_eq_getElem?_getD, List.getElem?_eq_none hlen]

/-! ## The host's word -/

/-- A word presented while `exec` is Idle is the command it decodes to (R80). -/
theorem present_of_idle {s : State} {x : CommandWord} {i : Instr} (hx : s.exec = .idle) (hd : decode x = .command i) :
    present x s = exec i s := by
  simp [present, hx, hd]

/-- A run that has not stopped goes by the host's next move (R174, R187). -/
theorem step_of_unmarked {s : State} (hm : s.mark = none) : step s = hostTurn s := by
  rw [step, turn, hm]

/-- A step with `exec` Idle takes the host's next word, whichever way it is issued (R66, R80). -/
theorem step_of_word {s : State} {x : CommandWord} {rest : List HostMove} {i : Instr} (hm : s.mark = none)
    (hx : s.exec = .idle) (hh : s.host = .issue x :: rest ∨ s.host = .issueAtOnce x :: rest)
    (hd : decode x = .command i) : step s = exec i { s with host := rest } := by
  have hp : present x { s with host := rest } = exec i { s with host := rest } := present_of_idle hx hd
  rw [step_of_unmarked hm, hostTurn]
  obtain hh | hh := hh <;> rw [hh]
  · exact (if_pos (State.isIdle_of_idle hx)).trans hp
  · exact hp

/-- A word of 40 bits placed as the next one is that word, issued at once (R66, R81). -/
theorem withFetchWord_toNat (x : CommandWord) (s : State) : s.withFetchWord 40 x.toNat = placeWord x s := by
  rw [State.withFetchWord, Nat.mod_eq_of_lt x.isLt, BitVec.ofNat_toNat, BitVec.setWidth_eq]

/-- Settles O16: `withFetchWord` puts the word before the host's moves, and the step takes it from there. -/
theorem stepRunsDecodedCommand : Obligations.StepRunsDecodedCommand := by
  refine ⟨fun s x rest i => step_of_word, fun s x i hm hx hd => ?_⟩
  rw [withFetchWord_toNat]
  exact step_of_word (rest := s.host) hm hx (.inr rfl) hd

/-! ## The exchanges and the writes of DATA -/

@[simp] theorem startCount_append (h l : List Event) : startCount (h ++ l) = startCount h + startCount l :=
  List.countP_append

@[simp] theorem wireCount_append (h l : List Event) : wireCount (h ++ l) = wireCount h + wireCount l :=
  List.countP_append

/-- A state with the same shift engine and a history longer by events that neither start nor complete a transfer. -/
theorem wireInv_of_no_transfer {s t : State} {l : List Event} (hs : s.wireInv) (hshift : t.shift = s.shift)
    (hh : t.history = s.history ++ l) (hstart : startCount l = 0) (hwire : wireCount l = 0) : t.wireInv := by
  rw [State.wireInv, hh, hshift, startCount_append, wireCount_append, hstart, hwire]
  exact hs

/-- The write of DATA starts the one transfer in progress (R55, R56). -/
theorem wireInv_of_start {s t : State} {b : Byte} {live : Bool} (hs : s.wireInv) (hidle : s.shift = .idle)
    (hshift : t.shift = .busy b live) (hh : t.history = s.history ++ [.regWrite .data b]) : t.wireInv := by
  have hcount : startCount s.history = wireCount s.history := by simpa [State.wireInv, hidle, Shift.inProgress] using hs
  rw [State.wireInv, hh, hshift, startCount_append, wireCount_append, hcount]
  rfl

/-- The completion step ends the one transfer in progress (R57). -/
theorem engineTurn_wireInv {s : State} (hs : s.wireInv) : (engineTurn s).wireInv := by
  obtain ⟨e, h, -, -⟩ | ⟨tx, live, e, hbusy, h, -, -⟩ := engineTurn_cases s <;> rw [h]
  · exact hs
  · have hcount : startCount s.history = wireCount s.history + 1 := by
      simpa [State.wireInv, hbusy, Shift.inProgress] using hs
    rw [State.wireInv, completeTransfer_history, completeTransfer_shift, startCount_append, wireCount_append]
    exact hcount

/-- Of the controller's micro-steps only a write of DATA starts a transfer, and none completes one (R56). -/
theorem micro_wireInv {s t : State} (hs : s.wireInv) (h : micro s = .next t) : t.wireInv := by
  obtain ⟨-, rfl⟩ | ⟨cmd, mpc, loc, -, ⟨op, -, hop⟩ | ⟨-, rfl⟩⟩ := micro_cases h
  · exact hs
  · obtain ⟨m, l, ⟨_, _, rfl⟩ | rfl | ⟨_, rfl⟩ | rfl | ⟨_, rfl⟩ | ⟨_, rfl⟩ | ⟨b, hidle, rfl⟩ | ⟨_, -, -, rfl⟩⟩ :=
      runOp_cases hop
    case inr.inr.inr.inr.inr.inl => exact hs
    case inr.inr.inr.inr.inr.inr.inl => exact wireInv_of_start hs hidle rfl rfl
    all_goals exact wireInv_of_no_transfer (l := [_]) hs rfl rfl rfl rfl
  · exact wireInv_of_no_transfer (l := [_]) hs rfl rfl rfl rfl

/-- Settles O7: a step is made of turns of the shift engine, micro-steps, issues, responses and resets, and each keeps the
count. -/
theorem everyExchangeIsStartedByDataWrite : Obligations.EveryExchangeIsStartedByDataWrite := by
  intro s t hs h
  exact step_keeps (P := State.wireInv) (fun _ => engineTurn_wireInv) (fun _ _ _ => micro_wireInv) (fun _ _ hu => hu)
    (fun u i _ hu => wireInv_of_no_transfer (l := [.cmd (encode i)]) hu rfl rfl rfl rfl)
    (fun u i st _ hu => wireInv_of_no_transfer (l := [.cmd (encode i), .resp st 0]) hu rfl (by simp) rfl rfl)
    (fun _ _ => rfl) hs h

end Sys2Proof.Machine
end

section
/-! SUPPORT. The grain of a step (20_memory.md R63; log 7): at the finest pace a step is one micro-step, and the
micro-steps do not depend on the pace. -/

namespace Sys2Proof.Machine

/-! ## The micro-steps at the finest pace -/

/-- The shift engine does not read the pace. -/
theorem engineTurn_finest (s : State) : engineTurn s.finest = (engineTurn s).finest := by
  cases hs : s.shift with
  | idle => rw [engineTurn_of_idle hs, engineTurn_of_idle (s := s.finest) hs]
  | busy tx live =>
    rw [engineTurn_of_busy hs, engineTurn_of_busy (s := s.finest) hs, apply_ite State.finest]
    rfl

/-- No operation of the pseudocode reads the pace. -/
theorem runOp_finest (cmd : Instr) (mpc : Nat) (loc : Locals) (op : MicroOp) (s : State) :
    runOp cmd mpc loc op s.finest = mapNext State.finest (runOp cmd mpc loc op s) := by
  cases op with
  | send =>
    cases hs : s.shift with
    | busy tx live =>
      simp only [runOp, memWrite_data_of_busy _ hs, memWrite_data_of_busy (s := s.finest) _ hs]; rfl
    | idle => simp only [runOp, memWrite_data_of_idle _ hs, memWrite_data_of_idle (s := s.finest) _ hs]; rfl
  | receive again =>
    cases hs : s.shift with
    | busy tx live => simp only [runOp, memRead_data_of_busy hs, memRead_data_of_busy (s := s.finest) hs]; rfl
    | idle =>
      cases hr : s.rx with
      | none => simp only [runOp, memRead_data_of_unwritten hs hr, memRead_data_of_unwritten (s := s.finest) hs hr]; rfl
      | some r =>
        simp only [runOp, memRead_data_of_idle hs hr, memRead_data_of_idle (s := s.finest) hs hr, afterRead, mapNext]
        split <;> rfl
  | _ => rfl

/-- No micro-step of the controller reads the pace. -/
theorem micro_finest (s : State) : micro s.finest = mapNext State.finest (micro s) := by
  cases hx : s.exec with
  | idle => simp [micro, State.finest, hx, mapNext]
  | busy cmd mpc loc =>
    have hx' : s.finest.exec = .busy cmd mpc loc := hx
    simp only [micro, hx, hx']
    cases (program cmd)[mpc]? with
    | none => rfl
    | some op => exact runOp_finest cmd mpc loc op s

/-- A micro-step of the machine at the finest pace is the same micro-step. -/
theorem tick_finest {s t : State} (h : tick s = .next t) : tick s.finest = .next t.finest := by
  rw [tick] at h ⊢
  rw [engineTurn_finest, micro_finest, h]
  rfl

/-! ## The steps at the finest pace -/

/-- With no command in progress the machine is at rest (log 7). -/
theorem atRest_of_idle {s : State} (h : s.exec = .idle) : atRest s = true := by
  simp [atRest, State.isIdle_of_idle h]

/-- A machine that is not at rest has a command in progress (log 7). -/
theorem exec_ne_idle_of_not_atRest {s : State} (h : ¬ atRest s = true) : s.exec ≠ .idle :=
  fun hi => h (atRest_of_idle hi)

/-- A command goes on undisturbed: no mark, and a host that waits for its response (R80, R194). -/
def State.undisturbed (s : State) : Prop := s.mark = none ∧ s.hostWaits

/-- No micro-step sets the mark or makes a move of the host. -/
theorem tick_undisturbed {s t : State} (hs : s.undisturbed) (h : tick s = .next t) : t.undisturbed := by
  obtain ⟨-, hmark, -, -, -, -, hhost, -⟩ := micro_keeps h
  obtain ⟨-, -, -, hmark', -, -, hhost', -⟩ := engineTurn_keeps s
  rw [State.undisturbed, State.hostWaits, hmark, hhost, hmark', hhost']
  exact hs

/-- At the finest pace a step that goes on with a command is one micro-step. -/
theorem step_finest {s t : State} (hb : s.exec ≠ .idle) (hs : s.undisturbed) (h : tick s = .next t) :
    step s.finest = .next t.finest := by
  obtain ⟨hm, hw⟩ := hs
  rw [step_of_busy (s := s.finest) hb hm hw, tick_finest h]
  rfl

/-- What a run of micro-steps reaches at once, steps of the finest pace reach one micro-step at a time. -/
theorem run_finest_of_settle (n : Nat) {s t : State} (hs : s.undisturbed) (h : settle n s = .next t) :
    ∃ k, Host.Core.run Sys2Proof.core k s.finest = .next t.finest := by
  induction n generalizing s with
  | zero => cases h; exact ⟨0, rfl⟩
  | succ n ih =>
    rw [settle] at h
    split at h
    · cases h; exact ⟨0, rfl⟩
    · rename_i hrest
      have hb := exec_ne_idle_of_not_atRest hrest
      cases ht : tick s with
      | fault f => rw [ht] at h; cases h
      | refused r => rw [ht] at h; cases h
      | next u =>
        rw [ht] at h
        obtain ⟨k, hk⟩ := ih (tick_undisturbed hs ht) h
        exact ⟨k + 1, (run_of_step Sys2Proof.core (step_finest hb hs ht) k).trans hk⟩

/-- Settles O20: at the finest pace a command whose gate passes is only issued; the steps after it make its run of
micro-steps. -/
theorem commandIsItsMicroStepsOneByOne : Obligations.CommandIsItsMicroStepsOneByOne := by
  intro i s t hm hw h
  obtain ⟨hx, ⟨st, hgate, rfl⟩ | ⟨hgate, hrun⟩⟩ := exec_cases h
  · refine ⟨(respond st 0 (issued i s)).finest, 0, ?_, rfl⟩
    rw [exec_of_idle (s := s.finest) i hx, show gateFailure i s.finest.running = some st from hgate]
    rfl
  · obtain ⟨k, hk⟩ := run_finest_of_settle s.pace (s := issued i s) ⟨hm, hw⟩ hrun
    refine ⟨(issued i s).finest, k, ?_, hk⟩
    rw [exec_of_idle (s := s.finest) i hx, show gateFailure i s.finest.running = none from hgate]
    rfl

end Sys2Proof.Machine
end

section
/-! SUPPORT. The micro-steps of a transfer one by one (41_transfer.md R122, R128), and the poll whose completion is left
open (20_memory.md R57, R59, R124). -/

namespace Sys2Proof.Machine

/-! ## The micro-steps of a transfer -/

section Micro
variable {cmd : Instr} {loc : Locals} {s : State}

/-- With no transfer in progress a micro-step of the machine is the operation at the controller's position (R56). -/
theorem tick_of_op {mpc : Nat} {op : MicroOp} (hx : s.exec = .busy cmd mpc loc) (hs : s.shift = .idle)
    (ho : (program cmd)[mpc]? = some op) : tick s = runOp cmd mpc loc op s := by
  simp only [tick, engineTurn_of_idle hs, micro, hx, ho]

/-- Past the end of the pseudocode a micro-step is the return (R10). -/
theorem tick_of_return {mpc : Nat} (hx : s.exec = .busy cmd mpc loc) (hs : s.shift = .idle)
    (ho : (program cmd)[mpc]? = none) : tick s = .next (respond .ok loc.acc s) := by
  simp only [tick, engineTurn_of_idle hs, micro, hx, ho]

/-- With no transfer in progress a run of micro-steps is one micro-step and the rest of the run. -/
theorem settle_of_tick {n mpc : Nat} {t : State} (hx : s.exec = .busy cmd mpc loc) (hs : s.shift = .idle)
    (ht : tick s = .next t) : settle (n + 1) s = settle n t := by
  have hrest : atRest s = false := by simp [atRest, State.isIdle, hx, awaitsPeer, hs]
  simp [settle, hrest, ht]

/-- A run of micro-steps ends where the machine is at rest (log 7). -/
theorem settle_of_atRest (h : atRest s = true) : ∀ n, settle n s = .next s
  | 0 => rfl
  | n + 1 => by rw [settle, if_pos h]

/-- The state after the write of DATA that starts the exchange at wire position `loc.k` (R55, R128). -/
def afterSend (cmd : Instr) (loc : Locals) (s : State) : State :=
  { s with
    exec := .busy cmd 1 loc
    shift := .busy (byteToSend s.params cmd loc.k) s.liveNow
    status := s.statusCleared
    history := s.history ++ [.regWrite .data (byteToSend s.params cmd loc.k)] }

/-- The state after a poll that reads COMPLETE = 0, the schedule having come to `e` (R122). -/
def afterPollInVain (cmd : Instr) (loc : Locals) (e : Schedule) (s : State) : State :=
  { s with
    exec := .busy cmd 1 { loc with s := s.status }
    history := s.history ++ [.regRead .status s.status]
    engine := e }

/-- The state after the completion step and the poll that sees it (R57, R122). -/
def afterCompletion (cmd : Instr) (loc : Locals) (tx : Byte) (live : Bool) (e : Schedule) (s : State) : State :=
  { s with
    exec := .busy cmd 2 { loc with s := s.statusCompleted }
    shift := .idle
    status := s.statusCompleted
    rx := some (peerAnswer s.peer s.history tx s.choice)
    choice := s.choice + 1
    engine := e
    history := s.history
      ++ [.wire tx (peerAnswer s.peer s.history tx s.choice) live, .regRead .status s.statusCompleted] }

/-- The state after the read of DATA that returned `r`: on to the next wire position, or past the loop (R128). -/
def afterReceive (cmd : Instr) (loc : Locals) (r : Byte) (s : State) : State :=
  let acc := accumulate s.params cmd loc.k loc.acc r
  { s with
    exec :=
      if loc.k < lastPosition cmd then .busy cmd 0 { loc with k := loc.k + 1, acc := acc }
      else .busy cmd 3 { loc with acc := acc }
    history := s.history ++ [.regRead .data r] }

/-- Before the last wire position the controller goes on with the next one. -/
theorem afterReceive_exec_of_lt (r : Byte) (hk : loc.k < lastPosition cmd) :
    (afterReceive cmd loc r s).exec
      = .busy cmd 0 { loc with k := loc.k + 1, acc := accumulate s.params cmd loc.k loc.acc r } := if_pos hk

/-- At the last wire position the controller goes on past the loop. -/
theorem afterReceive_exec_of_le (r : Byte) (hk : lastPosition cmd ≤ loc.k) :
    (afterReceive cmd loc r s).exec = .busy cmd 3 { loc with acc := accumulate s.params cmd loc.k loc.acc r } :=
  if_neg (not_lt.2 hk)

variable (hc : isTransfer cmd = true)
include hc

theorem tick_send (hx : s.exec = .busy cmd 0 loc) (hs : s.shift = .idle) : tick s = .next (afterSend cmd loc s) := by
  rw [tick_of_op hx hs (op := .send) (by rw [program_transfer hc]; rfl), runOp, memWrite_data_of_idle _ hs]
  rfl

theorem tick_receive {r : Byte} (hx : s.exec = .busy cmd 2 loc) (hs : s.shift = .idle) (hr : s.rx = some r) :
    tick s = .next (afterReceive cmd loc r s) := by
  rw [tick_of_op hx hs (op := .receive 0) (by rw [program_transfer hc]; rfl), runOp, memRead_data_of_idle hs hr]
  simp only [afterRead, afterReceive]
  split <;> rfl

theorem tick_return (hx : s.exec = .busy cmd 3 loc) (hs : s.shift = .idle) :
    tick s = .next (respond .ok loc.acc s) :=
  tick_of_return hx hs (by rw [program_transfer hc]; rfl)

/-- A poll reads STATUS and is repeated while COMPLETE is 0 (R122). -/
theorem micro_poll (hx : s.exec = .busy cmd 1 loc) :
    micro s = .next ((s.record (.regRead .status s.status)).moveTo cmd (if s.complete then 2 else 1)
      { loc with s := s.status }) := by
  have ho : (program cmd)[1]? = some .poll := by rw [program_transfer hc]; rfl
  simp only [micro, hx, ho, runOp, memRead_status, afterRead, State.complete, decide_eq_true_eq, Nat.reduceAdd]

/-- A poll at an opportunity that does not complete the transfer. -/
theorem tick_poll_in_vain {tx : Byte} {live : Bool} (hx : s.exec = .busy cmd 1 loc) (hs : s.shift = .busy tx live)
    (hcf : s.complete = false) (hn : s.engine.completesNow live = false) :
    tick s = .next (afterPollInVain cmd loc (s.engine.next live) s) := by
  rw [tick, engineTurn_of_busy hs, if_neg (by simp [hn]), micro_poll hc (loc := loc) (by exact hx)]
  rw [show State.complete { s with engine := s.engine.next live } = false from hcf]
  rfl

/-- A poll at an opportunity that completes the transfer sees it complete. -/
theorem tick_poll_completed {tx : Byte} {live : Bool} (hx : s.exec = .busy cmd 1 loc) (hs : s.shift = .busy tx live)
    (hn : s.engine.completesNow live = true) :
    tick s = .next (afterCompletion cmd loc tx live (s.engine.next live) s) := by
  rw [tick, engineTurn_of_busy hs, if_pos hn, micro_poll hc (loc := loc) (by exact hx)]
  have hcf : (completeTransfer tx live { s with engine := s.engine.next live }).complete = true :=
    decide_eq_true (statusCompleted_and s)
  rw [hcf]
  simp [State.moveTo, State.record, completeTransfer, afterCompletion, State.statusCompleted]

end Micro

/-! ## A transfer goes on, always to a next state -/

/-- What the operation at position `mpc` of `XferByte` needs to answer a next state: no transfer in progress, at the poll
one that COMPLETE does not yet show, and at the read of DATA a byte received (R53, R55). -/
def State.transferReady (s : State) : Nat → Prop
  | 1 => s.shift ≠ .idle ∧ s.complete = false
  | 2 => s.shift = .idle ∧ s.rx ≠ none
  | _ => s.shift = .idle

/-- Either no command or a transfer is in progress, and its next operation has what it needs. -/
def State.transfersOn (s : State) : Prop :=
  s.exec = .idle
    ∨ ∃ cmd mpc loc, isTransfer cmd = true ∧ mpc ≤ 3 ∧ s.exec = .busy cmd mpc loc ∧ s.transferReady mpc

theorem afterSend_complete (cmd : Instr) (loc : Locals) (s : State) : (afterSend cmd loc s).complete = false :=
  decide_eq_false (not_not_intro (statusCleared_and s))

theorem afterCompletion_complete (cmd : Instr) (loc : Locals) (tx : Byte) (live : Bool) (e : Schedule) (s : State) :
    (afterCompletion cmd loc tx live e s).complete = true :=
  decide_eq_true (statusCompleted_and s)

/-- Each micro-step of a transfer answers a next state and leaves the next one what it needs. -/
theorem tick_transfersOn {s : State} (hb : s.exec ≠ .idle) (h : s.transfersOn) :
    ∃ t, tick s = .next t ∧ t.transfersOn := by
  obtain hi | ⟨cmd, mpc, loc, hc, hm, hx, hready⟩ := h
  · exact absurd hi hb
  match mpc, hm, hx, hready with
  | 0, _, hx, hs =>
    exact ⟨_, tick_send hc hx hs,
      .inr ⟨cmd, 1, loc, hc, by decide, rfl, Shift.noConfusion, afterSend_complete cmd loc s⟩⟩
  | 1, _, hx, ⟨hs, hcf⟩ =>
    cases hbusy : s.shift with
    | idle => exact absurd hbusy hs
    | busy tx live =>
      cases hn : s.engine.completesNow live with
      | false =>
        exact ⟨_, tick_poll_in_vain hc hx hbusy hcf hn, .inr ⟨cmd, 1, _, hc, by decide, rfl, hs, hcf⟩⟩
      | true =>
        exact ⟨_, tick_poll_completed hc hx hbusy hn, .inr ⟨cmd, 2, _, hc, by decide, rfl, rfl, Option.some_ne_none _⟩⟩
  | 2, _, hx, ⟨hs, hrx⟩ =>
    obtain ⟨r, hr⟩ := Option.ne_none_iff_exists'.1 hrx
    refine ⟨_, tick_receive hc hx hs hr, .inr ?_⟩
    obtain hk | hk := lt_or_ge loc.k (lastPosition cmd)
    · exact ⟨cmd, 0, _, hc, by decide, afterReceive_exec_of_lt r hk, hs⟩
    · exact ⟨cmd, 3, _, hc, by decide, afterReceive_exec_of_le r hk, hs⟩
  | 3, _, hx, hs => exact ⟨_, tick_return hc hx hs, .inl rfl⟩

/-- A run of a transfer's micro-steps answers a next state and only appends to the history. -/
theorem settle_transfersOn (n : Nat) {s : State} (h : s.transfersOn) :
    ∃ t, settle n s = .next t ∧ s.history <+: t.history := by
  obtain ⟨t, ht, -, hh⟩ := settle_answers (P := fun u => u.transfersOn ∧ s.history <+: u.history)
    (fun u hb ⟨hu, hpre⟩ => by
      obtain ⟨v, hv, hon⟩ := tick_transfersOn hb hu
      exact ⟨v, hv, hon, hpre.trans (tick_history hv)⟩)
    n s ⟨h, List.prefix_rfl⟩
  exact ⟨t, ht, hh⟩

/-! ## The open poll -/

/-- A poll whose completion nothing settles is where a step ends (log 7). -/
theorem atRest_of_open_poll {cmd : Instr} (hc : isTransfer cmd = true) {loc : Locals} {s : State} {tx : Byte}
    {live : Bool} (hx : s.exec = .busy cmd 1 loc) (hs : s.shift = .busy tx live) (he : s.engine.script = [])
    (ho : s.engine.afterScript live ≠ .completes) : atRest s = true := by
  have hop : (program cmd)[1]? = some .poll := by rw [program_transfer hc]; rfl
  simp [atRest, atPoll, hx, hop, awaitsPeer, hs, he, ho]

/-- The write of DATA comes to a poll where a step ends, unless the schedule completes the exchange for certain. -/
theorem afterSend_atRest {cmd : Instr} (hc : isTransfer cmd = true) (loc : Locals) {s : State}
    (he : s.engine.script = []) (ho : s.engine.afterScript s.liveNow ≠ .completes) :
    atRest (afterSend cmd loc s) = true :=
  atRest_of_open_poll (loc := loc) hc rfl rfl he ho

/-- A schedule with its script used up that leaves transfers of this kind open, at an opportunity (log 3). -/
theorem free_opportunity {e : Schedule} {live : Bool} (he : e.script = []) (hf : e.afterScript live = .free) :
    e.completesNow live = Config.completes live e.opportunity ∧ e.next live = e.nextOpportunity := by
  simp [Schedule.completesNow, Schedule.next, he, hf]

/-- The run past the poll, at the last wire position: the read of DATA and the response (R128). -/
theorem settle_past_last_poll {cmd : Instr} (hc : isTransfer cmd = true) {loc : Locals} {u : State} {r : Byte}
    (hx : u.exec = .busy cmd 2 loc) (hs : u.shift = .idle) (hr : u.rx = some r) (hk : lastPosition cmd ≤ loc.k)
    {n : Nat} (hn : 2 ≤ n) :
    settle n u = .next { u with
      exec := .idle
      history := u.history ++ [.regRead .data r, .resp .ok (accumulate u.params cmd loc.k loc.acc r)] } := by
  obtain ⟨n, rfl⟩ := Nat.exists_eq_add_of_le' hn
  have hx' := afterReceive_exec_of_le (s := u) r hk
  rw [settle_of_tick hx hs (tick_receive hc hx hs hr), settle_of_tick hx' hs (tick_return hc hx' hs),
    settle_of_atRest (atRest_of_idle rfl)]
  simp [respond, afterReceive]

/-- The run past the poll before the last wire position, where nothing settles the next exchange: the read of DATA, the
write of the next byte, and its poll (R128, log 7). -/
theorem settle_past_poll {cmd : Instr} (hc : isTransfer cmd = true) {loc : Locals} {u : State} {r : Byte}
    (hx : u.exec = .busy cmd 2 loc) (hs : u.shift = .idle) (hr : u.rx = some r) (hk : loc.k < lastPosition cmd)
    (he : u.engine.script = []) (ho : u.engine.afterScript u.liveNow ≠ .completes) {n : Nat}
    (hn : 2 ≤ n) :
    settle n u = .next { u with
      exec := .busy cmd 1 { loc with k := loc.k + 1, acc := accumulate u.params cmd loc.k loc.acc r }
      shift := .busy (byteToSend u.params cmd (loc.k + 1)) u.liveNow
      status := u.statusCleared
      history := u.history ++ [.regRead .data r, .regWrite .data (byteToSend u.params cmd (loc.k + 1))] } := by
  obtain ⟨n, rfl⟩ := Nat.exists_eq_add_of_le' hn
  have hx' := afterReceive_exec_of_lt (s := u) r hk
  rw [settle_of_tick hx hs (tick_receive hc hx hs hr), settle_of_tick hx' hs (tick_send hc hx' hs),
    settle_of_atRest (afterSend_atRest (s := afterReceive cmd loc r u) hc _ he ho)]
  simp only [afterSend, afterReceive, List.append_assoc, List.singleton_append]
  rfl

/-- STATUS with COMPLETE set and then cleared is STATUS with COMPLETE cleared. -/
theorem statusCompleted_cleared (s : State) : s.statusCompleted &&& ~~~s.params.CF = s.statusCleared :=
  statusCompleted_outside s

/-- Settles O42: the poll is `tick_poll_in_vain` or `tick_poll_completed`, as `Config.completes` has it; past it the run
is followed to the response or to the next open poll. -/
theorem openPollIsRepeatedOrCompletes : Obligations.OpenPollIsRepeatedOrCompletes := by
  intro s cmd loc tx live hc hx hs he hf hcf hm hw counted r acc b u
  obtain ⟨hnow, hnext⟩ := free_opportunity he hf
  have hstep := step_of_busy (s := s) (by simp [hx]) hm hw
  split
  case isTrue hfree =>
    have hpoll : tick s = .next u := by
      have h := tick_poll_completed hc hx hs (hnow.trans hfree)
      rwa [hnext] at h
    have hsettle : step s = settleStep u := by rw [hstep, hpoll]
    refine ⟨hsettle, ?next, fun hp hk => ?last, fun hp hk ho => ?before⟩
    case next =>
      rw [hsettle]
      exact settle_transfersOn _ (.inr ⟨cmd, 2, _, hc, by decide, rfl, rfl, Option.some_ne_none _⟩)
    case last =>
      rw [hsettle]
      exact settle_past_last_poll (u := u) hc rfl rfl rfl hk hp
    case before =>
      rw [hsettle, ← statusCompleted_cleared s]
      exact settle_past_poll (u := u) hc rfl rfl rfl hk he ho hp
  case isFalse hfree =>
    have h := tick_poll_in_vain hc hx hs hcf (hnow.trans (Bool.eq_false_iff.2 hfree))
    rw [hnext] at h
    have hrest : atRest (afterPollInVain cmd loc s.engine.nextOpportunity s) = true :=
      atRest_of_open_poll hc rfl hs he fun hcompletes => by cases hf.symm.trans hcompletes
    rw [hstep, h]
    exact settle_of_atRest hrest _

end Sys2Proof.Machine
end

section
/-! SUPPORT. The exchanges of a transfer where each completes for certain (41_transfer.md R121, R130, R140): the run of
micro-steps through all wire positions, and the response the scripted peer of 20_memory.md R58 fills. -/

namespace Sys2Proof.Machine

/-! ## The schedule through an exchange -/

/-- An exchange uses up what its polls and its completion took of the script. -/
theorem waits_add_afterExchange_le (e : Schedule) : e.waits + e.afterExchange.script.length ≤ e.script.length := by
  have h := congrArg List.length (List.takeWhile_append_dropWhile (p := (!·)) (l := e.script))
  simp only [List.length_append] at h
  simp only [Schedule.waits, Schedule.afterExchange, List.length_tail]
  omega

/-- An exchange uses up no more than one completion of the script. -/
theorem count_true_le_afterExchange (e : Schedule) :
    e.script.count true ≤ e.afterExchange.script.count true + 1 := by
  show e.script.count true ≤ (e.script.dropWhile (!·)).tail.count true + 1
  induction e.script with
  | nil => simp
  | cons taken rest ih =>
    cases taken with
    | true => simp
    | false => simpa using ih

/-- Where `n + 1` exchanges complete for certain, `n` more do after the first. -/
theorem answers_exchange {n : Nat} {s : State} (b : Byte) (h : s.answers (n + 1)) : (exchange b s).answers n :=
  h.imp (fun hn => by have := count_true_le_afterExchange s.engine; exact Nat.le_of_succ_le_succ (hn.trans this)) id

/-- Where `k + n` exchanges complete for certain, `n` more do after the first `k` of a transfer. -/
theorem answers_exchanges (cmd : Instr) (k : Nat) {n : Nat} {s : State} (h : s.answers (k + n)) :
    (exchanges cmd k s).answers n := by
  induction k generalizing n with
  | zero => simpa [exchanges] using h
  | succ k ih => exact answers_exchange _ (ih (by rwa [Nat.add_right_comm, Nat.add_assoc] at h))

/-- The next exchange completes for certain: the script has a completion, or its rule past the script completes it. -/
theorem answers_one_iff {s : State} :
    s.answers 1 ↔ true ∈ s.engine.script ∨ s.engine.afterScript s.liveNow = .completes :=
  or_congr_left List.count_pos_iff

/-! ## The state through the exchanges -/

section Exchanges
variable (cmd : Instr) (n : Nat) (s : State)

theorem exchanges_params : (exchanges cmd n s).params = s.params := by
  induction n with
  | zero => rfl
  | succ n ih => exact ih

theorem exchanges_peer : (exchanges cmd n s).peer = s.peer := by
  induction n with
  | zero => rfl
  | succ n ih => exact ih

theorem exchanges_shift : (exchanges cmd n s).shift = s.shift := by
  induction n with
  | zero => rfl
  | succ n ih => exact ih

/-- The write of DATA and the polls exchange no byte. -/
theorem wireCount_exchangeStarted (b : Byte) : wireCount (exchangeStarted b s) = wireCount s.history := by
  simp [exchangeStarted, wireCount, List.countP_replicate]

/-- Each exchange exchanges one byte. -/
theorem wireCount_exchanges : wireCount (exchanges cmd n s).history = wireCount s.history + n := by
  induction n with
  | zero => rfl
  | succ n ih =>
    simp only [exchanges, exchange, wireCount_append, wireCount_exchangeStarted, ih]
    rfl

end Exchanges

/-! ## The wire positions -/

theorem position_lt_iff {k : Nat} (hk : k < 4) (i : Fin 4) : Fin.ofNat 4 k < i ↔ k < i.val := by
  simp [Fin.lt_def, Nat.mod_eq_of_lt hk]

theorem position_succ (k : Nat) : Fin.ofNat 4 k + 1 = Fin.ofNat 4 (k + 1) := by
  simp [Fin.ext_iff, Fin.val_add]

/-! ## The run through the exchanges -/

section Run
variable {cmd : Instr} (hc : isTransfer cmd = true) {s : State} (hs : s.shift = .idle)
include hc hs

/-- The exchange at wire position `k`, the `k` before it done: on to the next position, or past the loop. -/
theorem settle_exchange_at {k : Nat} (n : Nat) {loc : Locals} (hk : k ≤ (lastPosition cmd).val)
    (hpos : loc.k = Fin.ofNat 4 k) (hacc : loc.acc = gathered cmd k s) (ha : s.answers (k + 1)) :
    ∃ next, next.acc = gathered cmd (k + 1) s ∧
      settle (n + ((exchanges cmd k s).engine.waits + 3)) ((exchanges cmd k s).moveTo cmd 0 loc) = settle n
        (if k < (lastPosition cmd).val then
          (exchanges cmd (k + 1) s).moveTo cmd 0 { next with k := Fin.ofNat 4 (k + 1) }
         else (exchanges cmd (k + 1) s).moveTo cmd 3 next) := by
  have hk4 : k < 4 := by omega
  have h := settle_exchange hc (s := (exchanges cmd k s).moveTo cmd 0 loc) n rfl ((exchanges_shift cmd k s).trans hs)
    (answers_one_iff.1 (answers_exchanges cmd k ha))
  rw [hpos, position_succ] at h
  simp only [position_lt_iff hk4] at h
  have hb : byteToSend ((exchanges cmd k s).moveTo cmd 0 loc).params cmd (Fin.ofNat 4 k)
      = byteToSend s.params cmd (Fin.ofNat 4 k) := by rw [moveTo_params, exchanges_params]
  rw [hb] at h
  refine ⟨_, ?_, h⟩
  rw [nextLocals, gathered, hpos, hacc, moveTo_params, exchanges_params]
  rfl

/-- A transfer just issued, where its first `k` exchanges complete for certain, comes to wire position `k`, with room for
the rest (R130, R140; log 7). -/
theorem settle_exchanges (hx : s.exec = .busy cmd 0 Locals.start) (hp : s.roomy) (k : Nat)
    (hk : k ≤ (lastPosition cmd).val) (ha : s.answers k) :
    ∃ n loc, loc.k = Fin.ofNat 4 k ∧ loc.acc = gathered cmd k s
      ∧ (exchanges cmd k s).engine.script.length + 16 ≤ n + 3 * k
      ∧ settleStep s = settle n ((exchanges cmd k s).moveTo cmd 0 loc) := by
  induction k with
  | zero => exact ⟨s.pace, Locals.start, rfl, rfl, hp, by rw [exchanges, State.moveTo, ← hx]; rfl⟩
  | succ k ih =>
    obtain ⟨m, loc, hpos, hacc, hroom, hrun⟩ := ih (by omega) (ha.imp_left Nat.le_of_succ_le)
    have hused : (exchanges cmd k s).engine.waits + (exchanges cmd (k + 1) s).engine.script.length
        ≤ (exchanges cmd k s).engine.script.length := waits_add_afterExchange_le _
    obtain ⟨n, rfl⟩ := Nat.exists_eq_add_of_le' (show (exchanges cmd k s).engine.waits + 3 ≤ m by omega)
    obtain ⟨next, hnext, hstep⟩ := settle_exchange_at hc hs n (by omega) hpos hacc ha
    rw [if_pos (by omega)] at hstep
    exact ⟨n, { next with k := Fin.ofNat 4 (k + 1) }, rfl, hnext, by omega, hrun.trans hstep⟩

/-- A transfer just issued, where all its exchanges complete for certain, runs to its response, which holds the bytes
received (R121, R130, R140). -/
theorem settleStep_of_answers (hx : s.exec = .busy cmd 0 Locals.start) (hp : s.roomy)
    (ha : s.answers ((lastPosition cmd).val + 1)) :
    settleStep s = .next (respond .ok (gathered cmd ((lastPosition cmd).val + 1) s)
      (exchanges cmd ((lastPosition cmd).val + 1) s)) := by
  obtain ⟨m, loc, hpos, hacc, hroom, hrun⟩ :=
    settle_exchanges hc hs hx hp (lastPosition cmd).val le_rfl (ha.imp_left Nat.le_of_succ_le)
  have hused := waits_add_afterExchange_le (exchanges cmd (lastPosition cmd).val s).engine
  obtain ⟨n, rfl⟩ := Nat.exists_eq_add_of_le'
    (show 1 + ((exchanges cmd (lastPosition cmd).val s).engine.waits + 3) ≤ m by omega)
  obtain ⟨next, hnext, hstep⟩ := settle_exchange_at hc hs (n + 1) le_rfl hpos hacc ha
  rw [if_neg (lt_irrefl _)] at hstep
  rw [hrun, ← Nat.add_assoc, hstep, ← hnext]
  exact settle_return (cmd := cmd) (mpc := 3) rfl ((exchanges_shift cmd _ s).trans hs) (by rw [program_transfer hc]; rfl)

end Run

/-- A transfer has no gate (R120). -/
theorem gateFailure_of_transfer {i : Instr} (hi : isTransfer i = true) (running : Bool) : gateFailure i running = none := by
  match i, hi with
  | .transferByte _, _ => rfl
  | .transferWord _, _ => rfl
  | .transferDWord _, _ => rfl

/-- A transfer whose exchanges all complete for certain responds Ok with the bytes received (R121, R130, R140). -/
theorem exec_of_answers {i : Instr} (hi : isTransfer i = true) {s : State} (hready : s.ready) (hp : s.roomy)
    (ha : s.answers ((lastPosition i).val + 1)) :
    exec i s = .next (respond .ok (gathered i ((lastPosition i).val + 1) (issued i s))
      (exchanges i ((lastPosition i).val + 1) (issued i s))) := by
  obtain ⟨hx, hs⟩ := hready
  rw [exec_of_idle i hx, gateFailure_of_transfer hi]
  exact settleStep_of_answers hi hs rfl hp ha

/-! ## The bytes in their places -/

/-- The value that the bytes `r` make, each at the place of the wire position it came in for (R145). -/
def placed (p : Config.Params) (cmd : Instr) (r : Nat → Byte) : Nat → Operand
  | 0 => 0
  | n + 1 => accumulate p cmd (Fin.ofNat 4 n) (placed p cmd r n) (r n)

/-- One byte is the value's low byte (R121). -/
theorem placed_transferByte (p : Config.Params) (b : Byte) (r : Nat → Byte) :
    placed p (.transferByte b) r 1 = (r 0).setWidth 32 := by
  simp [placed, accumulate, placeByte, byteIndex]

/-- Of two bytes the first is the high one (R130). -/
theorem placed_transferWord (p : Config.Params) (w : Half) (r : Nat → Byte) :
    placed p (.transferWord w) r 2 = (r 0 ++ r 1 : Half).setWidth 32 := by
  show 0 ||| placeByte (r 0) 1 ||| placeByte (r 1) 0 = _
  ext j hj
  have happend : (r 0 ++ r 1 : Half).getLsbD j = if j < 8 then (r 1).getLsbD j else (r 0).getLsbD (j - 8) :=
    BitVec.getLsbD_append
  by_cases hlow : j < 8
  · simp [placeByte, happend, hlow]
  · simp [placeByte, happend, hlow, BitVec.getLsbD_of_ge (r 1) j (Nat.le_of_not_lt hlow)]

/-- Four bytes stand where `DWORD_ORDER` takes them from (R140, R145). -/
theorem placed_transferDWord (p : Config.Params) (d : Operand) (r : Nat → Byte) :
    placed p (.transferDWord d) r 4 = placeByte (r 0) p.dwordOrder[0] ||| placeByte (r 1) p.dwordOrder[1]
      ||| placeByte (r 2) p.dwordOrder[2] ||| placeByte (r 3) p.dwordOrder[3] := by
  simp [placed, accumulate, byteIndex]

/-- What the first `n` exchanges gather is the bytes they received, in their places. -/
theorem gathered_eq_placed {cmd : Instr} {s : State} {r : Nat → Byte} {n : Nat}
    (hr : ∀ k < n, received (byteToSend s.params cmd (Fin.ofNat 4 k)) (exchanges cmd k s) = r k) :
    gathered cmd n s = placed s.params cmd r n := by
  induction n with
  | zero => rfl
  | succ n ih => rw [gathered, placed, ih fun k hk => hr k (Nat.lt_succ_of_lt hk), hr n (Nat.lt_succ_self n)]

/-! ## The scripted peer -/

/-- A transfer whose exchanges all complete returns the next bytes of the scripted peer's list. -/
theorem exec_of_scripted {i : Instr} (hi : isTransfer i = true) {s : State} {bytes : List Byte} (hready : s.ready)
    (hp : s.roomy) (hpeer : s.peer = .scripted bytes) (ha : s.answers ((lastPosition i).val + 1)) (r : Nat → Byte)
    (hr : ∀ k ≤ (lastPosition i).val, bytes[wireCount s.history + k]? = some (r k)) {v : Operand}
    (hv : placed s.params i r ((lastPosition i).val + 1) = v) :
    ∃ t, exec i s = .next t ∧ t.history.getLast? = some (.resp .ok v) := by
  refine ⟨_, exec_of_answers hi hready hp ha, ?_⟩
  rw [respond_history, List.getLast?_concat, gathered_eq_placed (r := r) fun k hk => ?_, issued_params, hv]
  have hpeer' : (exchanges i k (issued i s)).peer = .scripted bytes := (exchanges_peer i k _).trans hpeer
  rw [received, hpeer']
  refine peerAnswer_scripted_of_getElem? _ _ ?_
  rw [wireCount_exchangeStarted, wireCount_exchanges, issued_history, wireCount_append]
  exact hr k (Nat.le_of_lt_succ hk)

/-- Settles O39: the bytes the exchanges gather are those of the list, and `placed` puts them where the transfer says. -/
theorem scriptedPeerFillsTheResponse : Obligations.ScriptedPeerFillsTheResponse := by
  intro s bytes hready hp hpeer n place
  refine ⟨fun b r0 ha h0 => ?byte, fun w r0 r1 ha h0 h1 => ?word, fun d r0 r1 r2 r3 ha h0 h1 h2 h3 => ?dword⟩
  case byte =>
    exact exec_of_scripted (i := .transferByte b) rfl hready hp hpeer ha (fun _ => r0)
      (fun | 0, _ => h0) (placed_transferByte _ _ _)
  case word =>
    exact exec_of_scripted (i := .transferWord w) rfl hready hp hpeer ha (fun | 0 => r0 | _ => r1)
      (fun | 0, _ => h0 | 1, _ => h1) (placed_transferWord _ _ _)
  case dword =>
    exact exec_of_scripted (i := .transferDWord d) rfl hready hp hpeer ha (fun | 0 => r0 | 1 => r1 | 2 => r2 | _ => r3)
      (fun | 0, _ => h0 | 1, _ => h1 | 2, _ => h2 | 3, _ => h3) (placed_transferDWord _ _ _)

end Sys2Proof.Machine
end

section
/-! SUPPORT. Transfers under a responsive peer (20_memory.md R59): every live transfer completes after some number of
polls, so every transfer returns; under the loop-back peer it returns the value sent (41_transfer.md R125, R132, R143). -/

namespace Sys2Proof.Machine

/-! ## A run of micro-steps to the response -/

/-- The micro-steps lead to a state with `exec` Idle in which `Q` holds, however steps group them (log 7). -/
inductive State.leadsTo (Q : State → Prop) : State → Prop
  | here {s : State} (hx : s.exec = .idle) (hq : Q s) : leadsTo Q s
  | tick {s t : State} (hb : s.exec ≠ .idle) (ht : tick s = .next t) (h : leadsTo Q t) : leadsTo Q s

/-- Where the micro-steps lead, a run of them and the steps after it lead, at any pace. -/
theorem run_of_leadsTo {Q : State → Prop} {s : State} (h : s.leadsTo Q) (hs : s.undisturbed) (n : Nat) :
    ∃ u k t, settle n s = .next u ∧ Host.Core.run Sys2Proof.core k u = .next t ∧ Q t := by
  induction h generalizing n with
  | @here s hx hq => exact ⟨s, 0, s, settle_of_atRest (atRest_of_idle hx) n, rfl, hq⟩
  | @tick s t hb ht _ ih =>
    have hnext := ih (tick_undisturbed hs ht)
    obtain ⟨hm, hw⟩ := hs
    have hstay : ∃ k v, Host.Core.run Sys2Proof.core k s = .next v ∧ Q v := by
      obtain ⟨u, k, v, hu, hk, hv⟩ := hnext t.pace
      have hstep : step s = .next u := by rw [step_of_busy hb hm hw, ht]; exact hu
      exact ⟨k + 1, v, (run_of_step Sys2Proof.core hstep k).trans hk, hv⟩
    cases n with
    | zero => exact ⟨s, hstay.imp fun k ⟨v, hk, hv⟩ => ⟨v, rfl, hk, hv⟩⟩
    | succ n =>
      by_cases hrest : atRest s = true
      · exact ⟨s, hstay.imp fun k ⟨v, hk, hv⟩ => ⟨v, settle_of_atRest hrest _, hk, hv⟩⟩
      · obtain ⟨u, k, v, hu, hk, hv⟩ := hnext n
        exact ⟨u, k, v, by rw [settle, if_neg hrest, ht]; exact hu, hk, hv⟩

/-! ## A responsive schedule -/

/-- The schedule completes a transfer after some number of opportunities. -/
inductive Schedule.willComplete (live : Bool) : Schedule → Prop
  | now {e : Schedule} (h : e.completesNow live = true) : willComplete live e
  | later {e : Schedule} (hn : e.completesNow live = false) (h : willComplete live (e.next live)) : willComplete live e

theorem Schedule.willComplete.of_next {live : Bool} {e : Schedule} (h : (e.next live).willComplete live) :
    e.willComplete live := by
  cases hn : e.completesNow live with
  | true => exact .now hn
  | false => exact .later hn h

/-- Past the script, a schedule that leaves live transfers open completes one by the opportunity at which
`Config.completes` does (R59). -/
theorem Schedule.willComplete.of_free {e : Schedule} (he : e.script = []) (hf : e.live = .free) (d : Nat)
    (hd : Config.completes true (e.opportunity + d) = true) : e.willComplete true := by
  induction d generalizing e with
  | zero => exact .now ((free_opportunity (live := true) he hf).1.trans hd)
  | succ d ih =>
    have hnext : e.next true = e.nextOpportunity := (free_opportunity (live := true) he hf).2
    have hd' : Config.completes true (e.nextOpportunity.opportunity + d) = true := by
      rwa [Schedule.nextOpportunity, Nat.add_right_comm]
    exact .of_next (hnext ▸ ih (e := e.nextOpportunity) he hf hd')

theorem next_live (live : Bool) (e : Schedule) : (e.next live).live = e.live := by
  unfold Schedule.next
  cases e.script with
  | cons taken rest => rfl
  | nil => cases e.afterScript live <;> rfl

/-- Under `PeerResponsive` the schedule completes every live transfer (R59). -/
theorem willComplete_of_peerResponsive {s : State} (h : s.peerResponsive) : s.engine.willComplete true := by
  induction hs : s.engine.script generalizing s with
  | nil =>
    cases hl : s.engine.live with
    | completes => exact .now (by simp [Schedule.completesNow, hs, Schedule.afterScript, hl])
    | never => rw [State.peerResponsive, hl] at h; exact h.elim
    | free =>
      rw [State.peerResponsive, hl] at h
      obtain ⟨m, hle, hm⟩ := h s.engine.opportunity
      obtain ⟨d, rfl⟩ := Nat.exists_eq_add_of_le hle
      exact .of_free hs hl d hm
  | cons taken rest ih =>
    have hnext : s.engine.next true = { s.engine with script := rest } := by simp [Schedule.next, hs]
    refine .of_next ?_
    rw [hnext]
    exact ih (s := { s with engine := { s.engine with script := rest } }) h rfl

/-- `PeerResponsive` speaks of the rule for live transfers only. -/
theorem peerResponsive_of_live_eq {s t : State} (h : t.engine.live = s.engine.live) (hs : s.peerResponsive) :
    t.peerResponsive := by
  rwa [State.peerResponsive, h]

/-! ## An exchange under a responsive peer -/

/-- Running under a responsive peer, with the parameters `p` and the peer `q`: transfers are live, and each completes. -/
def State.responsive (p : Config.Params) (q : Peer) (s : State) : Prop :=
  s.params = p ∧ s.peer = q ∧ s.liveNow = true ∧ s.peerResponsive

/-- The controller is at position `mpc` of `cmd`, at wire position `k`, with `acc` gathered so far. -/
def State.carries (cmd : Instr) (mpc k : Nat) (acc : Operand) (s : State) : Prop :=
  ∃ loc, s.exec = .busy cmd mpc loc ∧ loc.k = Fin.ofNat 4 k ∧ loc.acc = acc

/-- The transfer of `b` is over (R57); the loop-back peer answered `b` (R58). -/
def State.completed (b : Byte) (s : State) : Prop :=
  s.shift = .idle ∧ s.complete = true ∧ ∃ r, s.rx = some r ∧ (s.peer = .loopBack → r = b)

/-- The bytes a transfer sends, by wire position (R121, R130, R140). -/
def bytesSent (p : Config.Params) (cmd : Instr) (k : Nat) : Byte := byteToSend p cmd (Fin.ofNat 4 k)

section Exchange
variable {Q : State → Prop} {cmd : Instr} {p : Config.Params} {q : Peer} {k : Nat} {acc : Operand}
  (hc : isTransfer cmd = true)
include hc

/-- The polls of a transfer that completes lead where its completion leads. -/
theorem leadsTo_of_poll {b : Byte} {e : Schedule} (he : e.willComplete true)
    (hQ : ∀ t : State, t.carries cmd 2 k acc → t.completed b → t.responsive p q → t.leadsTo Q) :
    ∀ s : State, s.engine = e → s.carries cmd 1 k acc → s.shift = .busy b true → s.complete = false →
      s.responsive p q → s.leadsTo Q := by
  induction he with
  | now hn =>
    rintro s rfl ⟨loc, hx, hk, hacc⟩ hs - ⟨hp, hq, hlive, hresp⟩
    refine .tick (by simp [hx]) (tick_poll_completed hc hx hs hn) (hQ _ ⟨_, rfl, hk, hacc⟩ ?_ ?_)
    · refine ⟨rfl, afterCompletion_complete .., _, rfl, fun hloop => ?_⟩
      rw [show s.peer = .loopBack from hloop]
      rfl
    · exact ⟨hp, hq, hlive, peerResponsive_of_live_eq (next_live ..) hresp⟩
  | later hn _ ih =>
    rintro s rfl ⟨loc, hx, hk, hacc⟩ hs hcf ⟨hp, hq, hlive, hresp⟩
    exact .tick (by simp [hx]) (tick_poll_in_vain hc hx hs hcf hn)
      (ih _ rfl ⟨_, rfl, hk, hacc⟩ hs hcf ⟨hp, hq, hlive, peerResponsive_of_live_eq (next_live ..) hresp⟩)

/-- A whole exchange, at wire position `k`, leads where the next position leads, or the return. -/
theorem leadsTo_of_exchange {s : State} (hk : k < 4) (hx : s.carries cmd 0 k acc) (hs : s.shift = .idle)
    (hr : s.responsive p q)
    (hQ : ∀ (t : State) (r : Byte), (q = .loopBack → r = bytesSent p cmd k) → t.shift = .idle → t.complete = true →
      t.responsive p q →
      (if k < (lastPosition cmd).val then t.carries cmd 0 (k + 1) (accumulate p cmd (Fin.ofNat 4 k) acc r)
        else t.carries cmd 3 k (accumulate p cmd (Fin.ofNat 4 k) acc r)) → t.leadsTo Q) :
    s.leadsTo Q := by
  obtain ⟨loc, hx, hpos, hacc⟩ := hx
  obtain ⟨hp, hq, hlive, hresp⟩ := hr
  refine .tick (by simp [hx]) (tick_send hc hx hs) ?_
  refine leadsTo_of_poll hc (b := bytesSent p cmd k) (willComplete_of_peerResponsive hresp) ?_ _ rfl
    ⟨loc, rfl, hpos, hacc⟩ ?_ (afterSend_complete ..) ⟨hp, hq, hlive, hresp⟩
  · rintro t ⟨loc', hx', hpos', hacc'⟩ ⟨hs', hcf', r, hrx, hloop⟩ ⟨hp', hq', hlive', hresp'⟩
    refine .tick (by simp [hx']) (tick_receive hc hx' hs' hrx)
      (hQ _ r (fun h => hloop (hq'.trans h)) hs' hcf' ⟨hp', hq', hlive', hresp'⟩ ?_)
    subst hp' hacc'
    split
    case isTrue hlt =>
      exact ⟨_, afterReceive_exec_of_lt r (by rwa [hpos', position_lt_iff hk]), by rw [hpos', position_succ], by rw [hpos']⟩
    case isFalse hge =>
      exact ⟨_, afterReceive_exec_of_le r (not_lt.1 (by rwa [hpos', position_lt_iff hk])), hpos', by rw [hpos']⟩
  · rw [afterSend, hp, hlive, hpos]
    rfl

end Exchange

/-! ## A transfer under a responsive peer -/

/-- The transfer has returned `(Ok, v)`, with no command and no transfer in progress (R86, R59). -/
def State.returned (v : Operand) (t : State) : Prop :=
  t.ready ∧ t.complete = true ∧ t.history.getLast? = some (.resp .ok v)

/-- From wire position `k` on, a transfer returns; under the loop-back peer, what came back is what was sent. -/
theorem leadsTo_returned {cmd : Instr} (hc : isTransfer cmd = true) {p : Config.Params} {q : Peer} (n : Nat) :
    ∀ (k : Nat) (acc : Operand) (s : State), k + n = (lastPosition cmd).val → s.carries cmd 0 k acc → s.shift = .idle →
      s.responsive p q → (q = .loopBack → acc = placed p cmd (bytesSent p cmd) k) →
      s.leadsTo fun t => ∃ v, t.returned v
        ∧ (q = .loopBack → v = placed p cmd (bytesSent p cmd) ((lastPosition cmd).val + 1)) := by
  induction n with
  | zero =>
    intro k acc s hk hx hs hr hacc
    refine leadsTo_of_exchange hc (by omega) hx hs hr fun t r hloop hs' hcf hr' hx' => ?_
    rw [if_neg (by omega)] at hx'
    obtain ⟨loc, hx', -, hacc'⟩ := hx'
    refine .tick (by simp [hx']) (tick_return hc hx' hs') (.here rfl ⟨loc.acc, ⟨⟨rfl, hs'⟩, hcf, by simp⟩, fun h => ?_⟩)
    rw [hacc', hloop h, hacc h, ← hk]
    rfl
  | succ n ih =>
    intro k acc s hk hx hs hr hacc
    refine leadsTo_of_exchange hc (by omega) hx hs hr fun t r hloop hs' hcf hr' hx' => ?_
    rw [if_pos (by omega)] at hx'
    refine ih (k + 1) _ t (by omega) hx' hs' hr' fun h => ?_
    rw [hloop h, hacc h]
    rfl

/-- Under `PeerResponsive` every transfer of a Running block returns; under the loop-back peer, with the bytes sent each in
its place. -/
theorem transfer_returnsOk {i : Instr} (hi : isTransfer i = true) {s : State} (hinv : s.Inv) (hx : s.exec = .idle)
    (hrun : s.running = true) (hs : s.undisturbed) (hresp : s.peerResponsive) :
    ∃ v, returnsOk i v s
      ∧ (s.peer = .loopBack → v = placed s.params i (bytesSent s.params i) ((lastPosition i).val + 1)) := by
  obtain ⟨-, hlife, htransfer⟩ := hinv
  have hidle : s.shift = .idle := by simpa [State.transferInv, hx] using htransfer
  have hlive : s.liveNow = true := by
    have hgate : s.gateBits true := by simpa [State.lifecycleInv, hx, hrun] using hlife
    obtain ⟨hen, hms, -⟩ := hgate
    rw [State.liveNow, hen, hms]
    rfl
  have hlead := leadsTo_returned hi (p := s.params) (q := s.peer) (lastPosition i).val 0 0 (issued i s) (Nat.zero_add _)
    ⟨_, rfl, rfl, rfl⟩ hidle ⟨rfl, rfl, hlive, hresp⟩ fun _ => rfl
  obtain ⟨u, k, t, hu, hk, v, hreturned, hv⟩ := run_of_leadsTo hlead hs s.pace
  refine ⟨v, ⟨u, k, t, ?_, hk, hreturned⟩, hv⟩
  rw [exec_of_idle i hx, gateFailure_of_transfer hi]
  exact hu

/-- Settles O37: the micro-steps of a transfer lead to its response, and so do the steps. -/
theorem responsivePeerLetsTransfersReturn : Obligations.ResponsivePeerLetsTransfersReturn := by
  intro i s hi hinv hx hrun hm hw hresp
  obtain ⟨v, hv, -⟩ := transfer_returnsOk hi hinv hx hrun ⟨hm, hw⟩ hresp
  exact ⟨v, hv⟩

/-! ## The value sent, from its bytes -/

/-- A byte of a value put back in its place is that byte of the value alone (R145). -/
theorem getLsbD_placeByte_byteAt (v : Operand) (i : Fin 4) (j : Nat) :
    (placeByte (byteAt v i) i).getLsbD j = true ↔ i.val = j / 8 ∧ v.getLsbD j = true := by
  by_cases hj : j < 32
  · by_cases hlow : j < 8 * i.val
    · simp [placeByte, hlow]
      omega
    · have hbit : 8 * i.val + (j - 8 * i.val) = j := by omega
      simp [placeByte, byteAt, hlow, hj, hbit]
      omega
  · simp [BitVec.getLsbD_of_ge _ j (Nat.le_of_not_lt hj)]

/-- The bytes sent at the first `n` wire positions, each put back in its place, are those bytes of the value alone. -/
theorem getLsbD_placed_bytesSent (p : Config.Params) (cmd : Instr) (n j : Nat) :
    (placed p cmd (bytesSent p cmd) n).getLsbD j = true
      ↔ (∃ k < n, (byteIndex p cmd (Fin.ofNat 4 k)).val = j / 8) ∧ cmd.operand.getLsbD j = true := by
  induction n with
  | zero => simp [placed]
  | succ n ih =>
    rw [placed, accumulate, bytesSent, byteToSend, BitVec.getLsbD_or, Bool.or_eq_true, ih, getLsbD_placeByte_byteAt,
      ← or_and_right, Nat.exists_lt_succ_right]

/-- The bytes sent, each put back in its place, are the value sent, where they hold every bit of it that is 1. -/
theorem placed_bytesSent {p : Config.Params} {cmd : Instr} {n : Nat}
    (h : ∀ j < 32, cmd.operand.getLsbD j = true → ∃ k < n, (byteIndex p cmd (Fin.ofNat 4 k)).val = j / 8) :
    placed p cmd (bytesSent p cmd) n = cmd.operand := by
  refine BitVec.eq_of_getLsbD_eq fun j hj => Bool.eq_iff_iff.2 ?_
  rw [getLsbD_placed_bytesSent, and_iff_right_iff_imp]
  exact h j hj

/-- A legal `DWORD_ORDER` names every byte index (R7). -/
theorem exists_dwordOrder_eq {p : Config.Params} (hp : p.legal = true) (i : Fin 4) :
    ∃ k : Fin 4, p.dwordOrder[k] = i := by
  obtain ⟨-, -, -, -, hnodup, -⟩ := (Config.Params.legal_iff p).1 hp
  have hinj : Function.Injective fun k : Fin 4 => p.dwordOrder[k] := by
    intro k l hkl
    exact Fin.ext ((hnodup.getElem_inj_iff (hi := by simp) (hj := by simp)).1 (by simpa using hkl))
  exact (Finite.injective_iff_surjective.1 hinj) i

/-- A zero-extended argument has its bits within its width. -/
theorem lt_of_getLsbD_setWidth {w : Nat} (v : BitVec w) {n j : Nat} (h : (v.setWidth n).getLsbD j = true) : j < w := by
  rw [BitVec.getLsbD_setWidth, Bool.and_eq_true] at h
  exact BitVec.lt_of_getLsbD h.2

/-- A transfer sends every byte of its operand that its argument reaches (R121, R130, R140). -/
theorem placed_bytesSent_eq_operand {p : Config.Params} (hp : p.legal = true) {i : Instr} (hi : isTransfer i = true) :
    placed p i (bytesSent p i) ((lastPosition i).val + 1) = i.operand := by
  refine placed_bytesSent fun j hj hbit => ?_
  match i, hi with
  | .transferByte b, _ =>
    have hlt : j < 8 := lt_of_getLsbD_setWidth b hbit
    exact ⟨0, Nat.zero_lt_one, show 0 = j / 8 by omega⟩
  | .transferWord w, _ =>
    have hlt : j < 16 := lt_of_getLsbD_setWidth w hbit
    obtain hlow | hhigh := lt_or_ge j 8
    · exact ⟨1, Nat.one_lt_two, show 0 = j / 8 by omega⟩
    · exact ⟨0, Nat.zero_lt_two, show 1 = j / 8 by omega⟩
  | .transferDWord d, _ =>
    obtain ⟨k, hk⟩ := exists_dwordOrder_eq hp ⟨j / 8, by omega⟩
    refine ⟨k.val, k.isLt, ?_⟩
    rw [Fin.ofNat_val_eq_self]
    exact congrArg Fin.val hk

/-- Settles O38: a transfer returns the bytes it sent, each in its place, and these are the value. -/
theorem loopBackReturnsTheValueSent : Obligations.LoopBackReturnsTheValueSent := by
  intro s hinv hx hrun hm hw hresp hpeer
  obtain ⟨hlegal, -⟩ := id hinv
  have hvalue : ∀ i, isTransfer i = true → returnsOk i i.operand s := by
    intro i hi
    obtain ⟨v, hv, hloop⟩ := transfer_returnsOk hi hinv hx hrun ⟨hm, hw⟩ hresp
    rwa [hloop hpeer, placed_bytesSent_eq_operand hlegal hi] at hv
  exact ⟨fun b => hvalue (.transferByte b) rfl, fun w => hvalue (.transferWord w) rfl,
    fun d => hvalue (.transferDWord d) rfl⟩

end Sys2Proof.Machine
end

section
/-! SUPPORT. The command word read row by row (30_encoding.md R82 to R89): which row a word stands in, by its opcode and its
unused operand bits; the words of commands, the words that spell none, and what the assembler writes (R87, R88). -/

namespace Sys2Proof

/-! ## Decoding by row -/

/-- The command of the same row whose argument is the low bits of the operand `y` (R82). -/
def Instr.withOperand (i : Instr) (y : Operand) : Instr :=
  match i with
  | .beginBus => .beginBus
  | .endBus => .endBus
  | .transferByte _ => .transferByte (y.setWidth 8)
  | .transferWord _ => .transferWord (y.setWidth 16)
  | .transferDWord _ => .transferDWord y
  | .setClockDivider _ => .setClockDivider (y.setWidth 8)
  | .setDataMode _ => .setDataMode (y.setWidth 8)

/-- The operand bits that a command of this row does not use (R82). -/
def Instr.unusedBits (i : Instr) : Operand :=
  match i with
  | .beginBus => 0xFFFFFFFF#32
  | .endBus => 0xFFFFFFFF#32
  | .transferByte _ => 0xFFFFFF00#32
  | .transferWord _ => 0xFFFF0000#32
  | .transferDWord _ => 0x00000000#32
  | .setClockDivider _ => 0xFFFFFF00#32
  | .setDataMode _ => 0xFFFFFF00#32

/-- The unused bits are those of the row's mask (R83). -/
@[simp] theorem operandField_rowMask (i : Instr) : operandField i.rowMask = i.unusedBits := by
  cases i <;> simp only [Instr.rowMask, Instr.unusedBits] <;> decide

/-- A word with a command's opcode and its unused operand bits 0 is the command of that row with the word's argument
(R83, R89). -/
theorem decode_of_row {x : CommandWord} {i : Instr} (hop : opField x = i.opcode)
    (hunused : operandField x &&& i.unusedBits = 0) : decode x = .command (i.withOperand (operandField x)) := by
  rw [decode_fields, hop]
  cases i <;> simp_all [Instr.opcode, Instr.unusedBits, Instr.withOperand]

/-- A word with a command's opcode and a nonzero unused operand bit is in no row (R85, R89). -/
theorem decode_of_unusedBits {x : CommandWord} {i : Instr} (hop : opField x = i.opcode)
    (hunused : operandField x &&& i.unusedBits ≠ 0) : decode x = .illegalCommand .unusedOperandBits := by
  rw [decode_fields, hop]
  cases i <;> simp_all [Instr.opcode, Instr.unusedBits]

/-- A word that decodes to a command has its opcode, unused operand bits 0, and its argument in the others (R83, R89). -/
theorem fields_of_decode {x : CommandWord} {i : Instr} (h : decode x = .command i) :
    opField x = i.opcode ∧ operandField x &&& i.unusedBits = 0 ∧ i.withOperand (operandField x) = i := by
  rw [decode_fields] at h
  split_ifs at h with hrow hrow hrow hrow hrow hrow hrow
  all_goals
    cases h
    obtain ⟨hop, hunused⟩ := hrow
    exact ⟨hop, hunused, rfl⟩

/-- A word with a reserved opcode is in no row (R84, R89). -/
theorem decode_of_reserved {x : CommandWord} (h : opField x = 0x00#8 ∨ 0x08#8 ≤ opField x) :
    decode x = .illegalCommand .reservedOpcode := by
  have hrow : ∀ c : BitVec 8, 0x01#8 ≤ c ∧ c ≤ 0x07#8 → opField x ≠ c := by
    bv_omega
  have hdefined : ¬ (0x01#8 ≤ opField x ∧ opField x ≤ 0x07#8) := by
    bv_omega
  rw [decode_fields, if_neg hdefined]
  simp [hrow]

/-! ## The word of a command -/

theorem withOperand_operand (i : Instr) : i.withOperand i.operand = i := by
  cases i <;> simp [Instr.withOperand, Instr.operand]

theorem operandField_rowMatch (i : Instr) : operandField i.rowMatch = 0 := by
  apply BitVec.eq_of_toNat_eq
  rw [operandField_toNat]
  simp only [Instr.rowMatch, BitVec.toNat_shiftLeft, BitVec.toNat_setWidth, Nat.shiftLeft_eq]
  change _ = 0
  omega

/-- A command's operand is 0 on the unused bits of its row (R81, R82). -/
theorem operand_and_unusedBits (i : Instr) : i.operand &&& i.unusedBits = 0 := by
  rw [← operandField_rowMask, ← operandField_encode, ← operandField_and, encode_and_rowMask, operandField_rowMatch]

/-- An operand that is 0 on the unused bits of a row is that of its command in the row (R82). -/
theorem operand_withOperand (i : Instr) {y : Operand} (h : y &&& i.unusedBits = 0) :
    (i.withOperand y).operand = y := by
  cases i with
  | beginBus => exact h.symm.trans BitVec.and_allOnes
  | endBus => exact h.symm.trans BitVec.and_allOnes
  | transferByte b => exact setWidth_setWidth_of_high y 0xFFFFFF00#32 (by decide) h
  | transferWord w => exact setWidth_setWidth_of_high y 0xFFFF0000#32 (by decide) h
  | transferDWord d => rfl
  | setClockDivider d => exact setWidth_setWidth_of_high y 0xFFFFFF00#32 (by decide) h
  | setDataMode m => exact setWidth_setWidth_of_high y 0xFFFFFF00#32 (by decide) h

/-- Settles O10: the word has the command's opcode, its unused operand bits are 0, and its operand holds the argument. -/
theorem decodeOfEncodeIsTheCommand : Obligations.DecodeOfEncodeIsTheCommand := by
  intro i
  have hunused : operandField (encode i) &&& i.unusedBits = 0 := by
    rw [operandField_encode, operand_and_unusedBits]
  rw [decode_of_row (opField_encode i) hunused, operandField_encode, withOperand_operand]

/-- Settles O11: the word and the command's own word have the same opcode and the same operand. -/
theorem encodeOfDecodedIsTheWord : Obligations.EncodeOfDecodedIsTheWord := by
  intro x i h
  obtain ⟨hop, hunused, hi⟩ := fields_of_decode h
  refine commandWord_ext (by rw [opField_encode, hop]) ?_
  calc operandField (encode i) = i.operand := operandField_encode i
    _ = (i.withOperand (operandField x)).operand := by rw [hi]
    _ = operandField x := operand_withOperand i hunused

/-- Settles O12: the decoder run on each word. -/
theorem writtenOutWordsDecode : Obligations.WrittenOutWordsDecode := by
  unfold Obligations.WrittenOutWordsDecode
  decide

end Sys2Proof

namespace Sys2Proof.Machine

/-! ## Words that spell no command -/

/-- A step with `exec` Idle presents the host's next word, whichever way it is issued (R80). -/
theorem step_presents {s : State} {x : CommandWord} {rest : List HostMove} (hm : s.mark = none) (hx : s.exec = .idle)
    (hh : s.host = .issue x :: rest ∨ s.host = .issueAtOnce x :: rest) : step s = present x { s with host := rest } := by
  rw [step_of_unmarked hm, hostTurn]
  obtain hh | hh := hh <;> rw [hh]
  exact if_pos (State.isIdle_of_idle hx)

/-- A word that spells no command is refused while `exec` is Idle (R174). -/
theorem present_of_illegal {s : State} {x : CommandWord} {e : Illegal} (hx : s.exec = .idle)
    (hd : decode x = .illegalCommand e) : present x s = .refused .illegalCommand := by
  simp [present, hx, hd]

/-- A refused step leaves the state with nothing but the refusal mark set (R174). -/
theorem advance_of_refused {s : State} {r : Refusal} (h : step s = .refused r) :
    advance s = { s with mark := some (.refused r) } := by
  rw [advance, h, leaves]

/-- A step that takes a word that spells no command is refused, with nothing but the refusal mark set (R89, R174). -/
theorem step_refuses_illegal {x : CommandWord} {e : Illegal} (hd : decode x = .illegalCommand e) (s : State)
    (rest : List HostMove) (hm : s.mark = none) (hx : s.exec = .idle)
    (hh : s.host = .issue x :: rest ∨ s.host = .issueAtOnce x :: rest) :
    step s = .refused .illegalCommand ∧ advance s = { s with mark := some (.refused .illegalCommand) } := by
  have hstep : step s = .refused .illegalCommand :=
    (step_presents hm hx hh).trans (present_of_illegal (s := { s with host := rest }) hx hd)
  exact ⟨hstep, advance_of_refused hstep⟩

/-- Settles O13: a reserved opcode is in no row, so the word is refused. -/
theorem reservedOpcodesAreRefused : Obligations.ReservedOpcodesAreRefused := by
  intro x hx
  exact ⟨decode_of_reserved hx, step_refuses_illegal (decode_of_reserved hx)⟩

/-- Settles O14: the opcode chooses the row, whose unused operand bits are not 0, so the word is refused. -/
theorem unusedOperandBitsAreRefused : Obligations.UnusedOperandBitsAreRefused := by
  intro x i hop hunused
  rw [operandField_rowMask] at hunused
  have hd : decode x = .illegalCommand .unusedOperandBits := decode_of_unusedBits hop hunused
  exact ⟨hd, step_refuses_illegal hd⟩

/-! ## The assembler -/

/-- The command a name spells with the number `n` for its argument, where it takes one (R82, R88). -/
def commandOf (name : CommandName) (n : Nat) : Instr :=
  match name with
  | .beginBus => .beginBus
  | .endBus => .endBus
  | .transferByte => .transferByte (BitVec.ofNat 8 n)
  | .transferWord => .transferWord (BitVec.ofNat 16 n)
  | .transferDWord => .transferDWord (BitVec.ofNat 32 n)
  | .setClockDivider => .setClockDivider (BitVec.ofNat 8 n)
  | .setDataMode => .setDataMode (BitVec.ofNat 8 n)

/-- A well-formed text command assembles to the command it spells (R87, R88). -/
theorem assemble_of_wellFormed {t : TextCommand} (h : t.wellFormed = true) :
    assemble t = some (commandOf t.name (t.argument.getD 0)) := by
  rw [assemble, if_pos h]
  cases t.name <;> rfl

/-- A text command that is not well formed is an assembly error (R87; log 12). -/
theorem assemble_of_not_wellFormed {t : TextCommand} (h : t.wellFormed = false) : assemble t = none := by
  simp [assemble, h]

theorem opField_encode_commandOf (name : CommandName) (n : Nat) : opField (encode (commandOf name n)) = name.opcode := by
  rw [opField_encode]
  cases name <;> rfl

/-- A number that fits a width is unchanged by zero-extension from it to the operand's (R82). -/
theorem toNat_zeroExtended {w n : Nat} (hw : w ≤ 32) (hn : n < 2 ^ w) :
    ((BitVec.ofNat w n).setWidth 32).toNat = n := by
  rw [BitVec.toNat_setWidth_of_le hw, BitVec.toNat_ofNat, Nat.mod_eq_of_lt hn]

/-- An argument that fits its width is the operand unchanged (R82). -/
theorem operand_commandOf {name : CommandName} {w n : Nat} (hw : name.argumentWidth? = some w) (hn : n < 2 ^ w) :
    (commandOf name n).operand.toNat = n := by
  cases name <;> cases hw
  case transferDWord => exact Nat.mod_eq_of_lt hn
  all_goals exact toNat_zeroExtended (by decide) hn

/-- A command without an argument has the operand 0 (R82). -/
theorem operand_commandOf_of_no_argument {name : CommandName} (n : Nat) (hw : name.argumentWidth? = none) :
    (commandOf name n).operand = 0 := by
  cases name <;> cases hw <;> rfl

/-- Settles O15: a text command is well formed exactly in the first and third clauses, and is then the command its name and
its argument spell. -/
theorem assemblyPlacesTheArgument : Obligations.AssemblyPlacesTheArgument := by
  refine ⟨?fits, ?tooWide, ?noArgument, ?superfluous, ?missing⟩
  case fits =>
    intro name w n hw hn
    refine ⟨commandOf name n, assemble_of_wellFormed ?_, opField_encode_commandOf name n, ?_⟩
    · simp [TextCommand.wellFormed, hw, hn]
    · rw [operandField_encode, operand_commandOf hw hn]
  case tooWide =>
    intro name w n hw hn
    exact assemble_of_not_wellFormed (by simp [TextCommand.wellFormed, hw, hn])
  case noArgument =>
    intro name hw
    refine ⟨commandOf name 0, assemble_of_wellFormed ?_, opField_encode_commandOf name 0, ?_⟩
    · simp [TextCommand.wellFormed, hw]
    · rw [operandField_encode, operand_commandOf_of_no_argument 0 hw]
  case superfluous =>
    intro name n hw
    exact assemble_of_not_wellFormed (by simp [TextCommand.wellFormed, hw])
  case missing =>
    intro name w hw
    exact assemble_of_not_wellFormed (by simp [TextCommand.wellFormed, hw])

end Sys2Proof.Machine
end

section
/-! SUPPORT. The host's port (30_encoding.md R80, R86): one response for each command issued, but for the one in progress;
the response word and its delivery. -/

namespace Sys2Proof.Machine

/-! ## Commands and responses over a step -/

@[simp] theorem commandCount_append (h l : List Event) : commandCount (h ++ l) = commandCount h + commandCount l :=
  List.countP_append

@[simp] theorem responseCount_append (h l : List Event) : responseCount (h ++ l) = responseCount h + responseCount l :=
  List.countP_append

/-- With no command in progress every command issued has had its response. -/
theorem responseInv_iff_of_idle {s : State} (hx : s.exec = .idle) :
    s.responseInv ↔ commandCount s.history = responseCount s.history := by
  rw [State.responseInv, hx, Exec.inProgress, Nat.add_zero]

/-- With a command in progress every command issued but this one has had its response. -/
theorem responseInv_iff_of_busy {s : State} {cmd : Instr} {mpc : Nat} {loc : Locals} (hx : s.exec = .busy cmd mpc loc) :
    s.responseInv ↔ commandCount s.history = responseCount s.history + 1 := by
  rw [State.responseInv, hx, Exec.inProgress]

/-- The shift engine issues nothing and answers nothing (R57). -/
theorem engineTurn_responseInv {s : State} (hs : s.responseInv) : (engineTurn s).responseInv := by
  obtain ⟨e, h, -, -⟩ | ⟨tx, live, e, -, h, -, -⟩ := engineTurn_cases s <;> rw [h]
  · exact hs
  · rw [State.responseInv, completeTransfer_history, commandCount_append, responseCount_append]
    exact hs

/-- An operation of the pseudocode issues nothing and answers nothing (R10). -/
theorem runOp_counts {cmd : Instr} {mpc : Nat} {loc : Locals} {op : MicroOp} {s t : State}
    (h : runOp cmd mpc loc op s = .next t) :
    commandCount t.history = commandCount s.history ∧ responseCount t.history = responseCount s.history := by
  obtain ⟨m, l, ⟨_, _, rfl⟩ | rfl | ⟨_, rfl⟩ | rfl | ⟨_, rfl⟩ | ⟨_, rfl⟩ | ⟨_, -, rfl⟩ | ⟨_, -, -, rfl⟩⟩ := runOp_cases h
  case inr.inr.inr.inr.inr.inl => exact ⟨rfl, rfl⟩
  all_goals exact ⟨commandCount_append _ [_], responseCount_append _ [_]⟩

/-- The response to a command in progress is its one response (R86). -/
theorem respond_responseInv {s : State} {cmd : Instr} {mpc : Nat} {loc : Locals} (st : Status) (v : Operand)
    (hx : s.exec = .busy cmd mpc loc) (hs : s.responseInv) : (respond st v s).responseInv := by
  rw [responseInv_iff_of_idle (respond_exec st v s), respond_history, commandCount_append, responseCount_append]
  exact (responseInv_iff_of_busy hx).1 hs

/-- A command issued while none is in progress is the one in progress (R80). -/
theorem issued_responseInv {s : State} (i : Instr) (hx : s.exec = .idle) (hs : s.responseInv) :
    (issued i s).responseInv := by
  rw [responseInv_iff_of_busy (issued_exec i s), issued_history, commandCount_append, responseCount_append]
  exact congrArg (· + 1) ((responseInv_iff_of_idle hx).1 hs)

/-- A micro-step of the controller goes on with the command in progress or answers it (R37, R86). -/
theorem micro_responseInv {s t : State} (hs : s.responseInv) (h : micro s = .next t) : t.responseInv := by
  obtain ⟨-, rfl⟩ | ⟨cmd, mpc, loc, hx, ⟨op, -, hop⟩ | ⟨-, rfl⟩⟩ := micro_cases h
  · exact hs
  · obtain ⟨m, l, hx', -⟩ := runOp_exec hop
    obtain ⟨hcommands, hresponses⟩ := runOp_counts hop
    rw [responseInv_iff_of_busy hx', hcommands, hresponses]
    exact (responseInv_iff_of_busy hx).1 hs
  · exact respond_responseInv _ _ hx hs

/-- Settles O6: a step is made of turns of the shift engine, micro-steps, issues, responses and resets, and each keeps the
count. -/
theorem everyCommandHasOneResponse : Obligations.EveryCommandHasOneResponse := by
  intro s t hs h
  exact step_keeps (P := State.responseInv) (fun _ => engineTurn_responseInv) (fun _ _ _ => micro_responseInv)
    (fun _ _ hu => hu) (fun _ i hx hu => issued_responseInv i hx hu)
    (fun u i st hx hu => respond_responseInv st 0 (issued_exec i u) (issued_responseInv i hx hu))
    (fun _ _ => rfl) hs h

/-! ## The response word -/

/-- The status stands above the 32 bits of the value (R86). -/
theorem responseWord_toNat (st : Status) (v : Operand) :
    (responseWord st v).toNat = st.code.toNat * 2 ^ 32 + v.toNat := by
  rw [responseWord, BitVec.toNat_append, ← Nat.shiftLeft_add_eq_or_of_lt v.isLt, Nat.shiftLeft_eq]

/-- Settles O24: the word is its status code above its value, and a delivery is its record and the controller's rest. -/
theorem responseWordAndDelivery : Obligations.ResponseWordAndDelivery := by
  intro st v s
  refine ⟨?_, rfl⟩
  rw [responseWord_toNat]
  cases st <;> rfl

end Sys2Proof.Machine
end

section
/-! SUPPORT. The invariant of the block over a step (10_state.md R110, 20_memory.md R57, 70_reset_and_hazards.md R195): what
it says at each place of a command, and that a turn of the shift engine and a micro-step, an issue whose gate is open, a
response and a reset keep it. -/

namespace Sys2Proof.Machine

/-! ## What the invariant says at each place -/

/-- Between commands the flag agrees with the gate bits (R110). -/
theorem lifecycleInv_iff_of_idle {s : State} (hx : s.exec = .idle) : s.lifecycleInv ↔ s.gateBits s.running := by
  rw [State.lifecycleInv, hx]

/-- The value at position `mpc` of a flag that is given `v` on the way to position `n`, and was the other value before. -/
def switched (v : Bool) (n mpc : Nat) : Bool := decide (n ≤ mpc) == v

theorem switched_of_le {v : Bool} {n mpc : Nat} (h : n ≤ mpc) : switched v n mpc = v := by
  simp [switched, h]

theorem switched_of_lt {v : Bool} {n mpc : Nat} (h : mpc < n) : switched v n mpc = !v := by
  simp [switched, Nat.not_le.2 h]

/-- On the way to any other position the flag keeps its value. -/
theorem switched_succ {v : Bool} {n mpc : Nat} (h : mpc + 1 ≠ n) : switched v n (mpc + 1) = switched v n mpc := by
  have hle : n ≤ mpc + 1 ↔ n ≤ mpc := by omega
  simp [switched, hle]

/-- Inside `begin` and `end` at position `mpc`, where CTRL is read at position `a`: the flag and the gate bits have been
given the value `v` or not yet, and a register is written back just as it was read (R68, R100, R105). -/
def State.switching (v : Bool) (a mpc : Nat) (loc : Locals) (s : State) : Prop :=
  s.running = switched v 9 mpc ∧ s.enable = switched v (a + 2) mpc ∧ s.master = switched v (a + 2) mpc
    ∧ s.hispeed = switched v (a + 4) mpc ∧ (mpc = a + 1 → loc.c = s.ctrl) ∧ (mpc = a + 3 → loc.s = s.status)

/-- `begin` gives the value true and reads CTRL at position 4 (R100). -/
theorem lifecycleInv_iff_of_begin {s : State} {mpc : Nat} {loc : Locals} (hx : s.exec = .busy .beginBus mpc loc) :
    s.lifecycleInv ↔ s.switching true 4 mpc loc := by
  simp [State.lifecycleInv, hx, State.switching, switched]

/-- `end` gives the value false and reads CTRL at position 0 (R105). -/
theorem lifecycleInv_iff_of_end {s : State} {mpc : Nat} {loc : Locals} (hx : s.exec = .busy .endBus mpc loc) :
    s.lifecycleInv ↔ s.switching false 0 mpc loc := by
  simp [State.lifecycleInv, hx, State.switching, switched, ← decide_not]

section OtherCommand
variable {i : Instr} (hb : i ≠ .beginBus) (he : i ≠ .endBus) {s : State}
include hb he

/-- Inside any other command the flag agrees with the gate bits and leaves the command's gate open (R120, R152). -/
theorem gates_of_lifecycleInv {mpc : Nat} {loc : Locals} (hx : s.exec = .busy i mpc loc) (h : s.lifecycleInv) :
    s.gateBits s.running ∧ gateFailure i s.running = none := by
  rw [State.lifecycleInv, hx] at h
  cases i with
  | beginBus => exact absurd rfl hb
  | endBus => exact absurd rfl he
  | setClockDivider d | setDataMode d =>
    obtain ⟨hrun, hbits, -⟩ := h
    rw [hrun]
    exact ⟨hbits, rfl⟩
  | transferByte b | transferWord b | transferDWord b => exact ⟨h, rfl⟩

/-- Where the flag agrees with the gate bits and leaves the gate of such a command open, and what is written back to a
register is what was read from it, the lifecycle invariant holds inside the command and after it. -/
theorem lifecycleInv_of_gates (honly : s.executesOnly i) (hbits : s.gateBits s.running)
    (hgate : gateFailure i s.running = none) (hread : s.readBack) : s.lifecycleInv := by
  cases hx : s.exec with
  | idle => exact (lifecycleInv_iff_of_idle hx).2 hbits
  | busy cmd mpc loc =>
    obtain rfl := honly cmd mpc loc hx
    have hc : ∀ f, (program cmd)[1]? = some (.writeCtrl f) → mpc = 1 → loc.c = s.ctrl := by
      rintro f hf rfl
      exact hread _ _ _ _ hx hf
    rw [State.lifecycleInv, hx]
    cases cmd with
    | beginBus => exact absurd rfl hb
    | endBus => exact absurd rfl he
    | setClockDivider d | setDataMode d =>
      have hrun : s.running = true := by simpa [gateFailure] using hgate
      rw [hrun] at hbits
      exact ⟨hrun, hbits, hc _ rfl⟩
    | transferByte b | transferWord b | transferDWord b => exact hbits

end OtherCommand

/-- Between commands the shift engine is Idle (R186). -/
theorem transferInv_iff_of_idle {s : State} (hx : s.exec = .idle) : s.transferInv ↔ s.shift = .idle := by
  rw [State.transferInv, hx]

/-- Inside a command that is no transfer the shift engine is Idle (R159). -/
theorem transferInv_iff_of_not_transfer {s : State} {cmd : Instr} {mpc : Nat} {loc : Locals}
    (hx : s.exec = .busy cmd mpc loc) (hc : isTransfer cmd = false) : s.transferInv ↔ s.shift = .idle := by
  simp [State.transferInv, hx, hc]

/-- What a transfer has at position `mpc` of `XferByte`: nothing in progress at the write of DATA, at the poll its own byte
or an exchange that is over, and past the poll an exchange that is over (R128, R195). -/
def State.exchanging (cmd : Instr) (loc : Locals) (s : State) : Nat → Prop
  | 0 => s.shift = .idle
  | 1 => (s.shift = .busy (byteToSend s.params cmd loc.k) s.liveNow ∧ s.complete = false) ∨ s.exchanged
  | _ => s.exchanged

/-- Inside a transfer the wire position is one of the command's, and `XferByte` has what its position needs (R159, R195). -/
theorem transferInv_iff_of_transfer {s : State} {cmd : Instr} {mpc : Nat} {loc : Locals}
    (hx : s.exec = .busy cmd mpc loc) (hc : isTransfer cmd = true) :
    s.transferInv ↔ loc.k ≤ lastPosition cmd ∧ s.exchanging cmd loc mpc := by
  rw [State.transferInv, hx]
  exact iff_of_eq (if_pos hc)

/-! ## The flag and the gate bits over a micro-step -/

/-- What `begin` and `end` have at position `m`, where they read CTRL at position `a` and give the flag and the gate bits
the value `v` (R100, R105). -/
def MicroOp.switchesAt (v : Bool) (a m : Nat) : MicroOp → Prop
  | .gpio _ _ => m < a ∨ (a + 4 ≤ m ∧ m < 8)
  | .readCtrl => m = a
  | .writeCtrl f => m = a + 1
      ∧ ∀ p c, (f p c).getLsbD p.enableBit.val = v ∧ (f p c).getLsbD p.masterBit.val = v
  | .readStatus => m = a + 2
  | .writeStatus f => m = a + 3 ∧ ∀ p c, (f p c).getLsbD p.hispeedBit.val = v
  | .setRunning w => m = 8 ∧ w = v
  | _ => False

/-- `begin` gives the value true, reading CTRL at position 4 (R100). -/
theorem begin_switchesAt {m : Nat} {op : MicroOp} (h : (program .beginBus)[m]? = some op) : op.switchesAt true 4 m := by
  have hall : ∀ p ∈ beginProgram.zipIdx, p.1.switchesAt true 4 p.2 := by
    simp [beginProgram, MicroOp.switchesAt, getLsbD_ctrlBegun, getLsbD_statusBegun, -BitVec.getLsbD_eq_getElem]
  exact hall (op, m) (List.mk_mem_zipIdx_iff_getElem?.2 h)

/-- `end` gives the value false, reading CTRL at position 0 (R105). -/
theorem end_switchesAt {m : Nat} {op : MicroOp} (h : (program .endBus)[m]? = some op) : op.switchesAt false 0 m := by
  have hall : ∀ p ∈ endProgram.zipIdx, p.1.switchesAt false 0 p.2 := by
    simp [endProgram, MicroOp.switchesAt, getLsbD_ctrlEnded, getLsbD_statusEnded, -BitVec.getLsbD_eq_getElem]
  exact hall (op, m) (List.mk_mem_zipIdx_iff_getElem?.2 h)

section Switching
variable {cmd : Instr} {v : Bool} {a mpc : Nat} {loc : Locals} {s t : State}

/-- The flag and the gate bits stay as they are on the way to a position where none of them is given its value. -/
theorem switching_succ {l : Locals} (hs : s.switching v a mpc loc) (hview : t.gateView = s.gateView)
    (hm : mpc ≠ 8 ∧ mpc ≠ a + 1 ∧ mpc ≠ a + 3) (hc : mpc = a → l.c = t.ctrl) (hst : mpc = a + 2 → l.s = t.status) :
    t.switching v a (mpc + 1) l := by
  obtain ⟨hrun, hen, hms, hhs, -, -⟩ := hs
  obtain ⟨hrun', hen', hms', hhs', -⟩ := gateView_eq_iff.1 hview
  rw [State.switching, switched_succ (by omega), switched_succ (by omega), switched_succ (by omega)]
  exact ⟨hrun'.trans hrun, hen'.trans hen, hms'.trans hms, hhs'.trans hhs, fun h => hc (by omega),
    fun h => hst (by omega)⟩

/-- An operation of `begin` or `end` gives the flag or a gate bit its value where it is to be given, and nowhere else. -/
theorem runOp_switching {op : MicroOp} (ha : a ≤ 4) (hp : s.params.legal = true) (hop : op.switchesAt v a mpc)
    (hs : s.switching v a mpc loc) (h : runOp cmd mpc loc op s = .next t) :
    ∃ l, t.exec = .busy cmd (mpc + 1) l ∧ t.switching v a (mpc + 1) l := by
  cases op with
  | gpio line dir =>
    cases h
    have hm : mpc < a ∨ (a + 4 ≤ mpc ∧ mpc < 8) := hop
    exact ⟨_, rfl, switching_succ hs rfl (by omega) (by omega) (by omega)⟩
  | readCtrl =>
    cases h
    obtain rfl : mpc = a := hop
    exact ⟨_, rfl, switching_succ hs rfl (by omega) (fun _ => rfl) (by omega)⟩
  | readStatus =>
    cases h
    obtain rfl : mpc = a + 2 := hop
    exact ⟨_, rfl, switching_succ hs rfl (by omega) (by omega) (fun _ => rfl)⟩
  | writeCtrl f =>
    cases h
    obtain ⟨hm, hf⟩ := hop
    obtain ⟨hrun, -, -, hhs, -, -⟩ := hs
    obtain ⟨hen, hms⟩ := hf s.params loc.c
    refine ⟨_, rfl, ?_⟩
    rw [State.switching, switched_succ (by omega), switched_of_le (n := a + 2) (by omega), switched_succ (by omega)]
    exact ⟨hrun, (State.enable_eq _).trans hen, (State.master_eq _).trans hms, hhs, by omega, by omega⟩
  | writeStatus f =>
    cases h
    obtain ⟨hm, hf⟩ := hop
    obtain ⟨hrun, hen, hms, -, -, -⟩ := hs
    obtain ⟨-, -, hpos⟩ := legal_positions hp
    have hhs : (s.statusWritten (f s.params loc.s)).getLsbD s.params.hispeedBit.val = v := by
      rw [getLsbD_statusWritten, if_neg hpos, hf]
    refine ⟨_, rfl, ?_⟩
    rw [State.switching, switched_succ (by omega), switched_succ (by omega), switched_of_le (n := a + 4) (by omega)]
    exact ⟨hrun, hen, hms, (State.hispeed_eq _).trans hhs, by omega, by omega⟩
  | setRunning w =>
    cases h
    obtain ⟨hm, rfl⟩ := hop
    obtain ⟨-, hen, hms, hhs, -, -⟩ := hs
    refine ⟨_, rfl, ?_⟩
    rw [State.switching, switched_of_le (n := 9) (by omega), switched_succ (by omega), switched_succ (by omega)]
    exact ⟨rfl, hen, hms, hhs, by omega, by omega⟩
  | send | poll | receive again => cases hop

/-- A micro-step of `begin` or `end` goes on with the flag and the gate bits so far, or returns with all of them given. -/
theorem micro_switching (ha : a ≤ 4) (hp : s.params.legal = true)
    (hprogram : ∀ (m : Nat) (op : MicroOp), (program cmd)[m]? = some op → op.switchesAt v a m)
    (hlen : (program cmd).length = 9) (hx : s.exec = .busy cmd mpc loc) (hs : s.switching v a mpc loc) (h : micro s = .next t) :
    (∃ l, t.exec = .busy cmd (mpc + 1) l ∧ t.switching v a (mpc + 1) l) ∨ (t.exec = .idle ∧ t.gateBits t.running) := by
  obtain ⟨hx', -⟩ | ⟨cmd', mpc', loc', hx', ⟨op, hop, hr⟩ | ⟨hend, rfl⟩⟩ := micro_cases h <;> cases hx.symm.trans hx'
  · exact .inl (runOp_switching ha hp (hprogram _ _ hop) hs hr)
  · obtain ⟨hrun, hen, hms, hhs, -, -⟩ := hs
    have hm : 9 ≤ mpc := hlen ▸ List.getElem?_eq_none_iff.1 hend
    rw [switched_of_le (by omega)] at hrun hen hms hhs
    refine .inr ⟨rfl, ?_⟩
    rw [respond_running, hrun]
    exact ⟨hen, hms, hhs⟩

end Switching

/-- A micro-step of `begin` keeps the lifecycle invariant (R100). -/
theorem micro_begin_lifecycleInv {mpc : Nat} {loc : Locals} {s t : State} (hp : s.params.legal = true)
    (hx : s.exec = .busy .beginBus mpc loc) (hs : s.lifecycleInv) (h : micro s = .next t) : t.lifecycleInv := by
  obtain ⟨l, hx', ht⟩ | ⟨hx', ht⟩ :=
    micro_switching le_rfl hp (fun _ _ => begin_switchesAt) rfl hx ((lifecycleInv_iff_of_begin hx).1 hs) h
  · exact (lifecycleInv_iff_of_begin hx').2 ht
  · exact (lifecycleInv_iff_of_idle hx').2 ht

/-- A micro-step of `end` keeps the lifecycle invariant (R105). -/
theorem micro_end_lifecycleInv {mpc : Nat} {loc : Locals} {s t : State} (hp : s.params.legal = true)
    (hx : s.exec = .busy .endBus mpc loc) (hs : s.lifecycleInv) (h : micro s = .next t) : t.lifecycleInv := by
  obtain ⟨l, hx', ht⟩ | ⟨hx', ht⟩ :=
    micro_switching (Nat.zero_le 4) hp (fun _ _ => end_switchesAt) rfl hx ((lifecycleInv_iff_of_end hx).1 hs) h
  · exact (lifecycleInv_iff_of_end hx').2 ht
  · exact (lifecycleInv_iff_of_idle hx').2 ht

/-- A micro-step of any other command leaves the flag and the gate bits (R21, R28, R29, R33). -/
theorem tick_gateView {i : Instr} (hb : i ≠ .beginBus) (he : i ≠ .endBus) {mpc : Nat} {loc : Locals} {s t : State}
    (hp : s.params.legal = true) (hread : s.readBack) (hx : s.exec = .busy i mpc loc) (h : tick s = .next t) :
    t.gateView = s.gateView := by
  have hengine := engineTurn_gateView hp
  obtain ⟨-, -, -, -, hparams⟩ := gateView_eq_iff.1 hengine
  have hx' : (engineTurn s).exec = .busy i mpc loc := (engineTurn_exec s).trans hx
  obtain ⟨hidle, -⟩ | ⟨cmd, m, l, hbusy, hstep⟩ := micro_cases h
  · cases hx'.symm.trans hidle
  · cases hx'.symm.trans hbusy
    obtain ⟨op, hop, hr⟩ | ⟨-, rfl⟩ := hstep
    · exact (runOp_gateView hb he (by rwa [hparams]) hop (engineTurn_readBack hread _ _ _ _ hx' hop) hr).trans hengine
    · exact hengine

/-- A micro-step keeps the lifecycle invariant: `begin` and `end` switch the flag and the gate bits each in its place, and
the other commands leave them (R100, R105, R110). -/
theorem tick_lifecycleInv {s t : State} (hs : s.Inv) (hb : s.exec ≠ .idle) (h : tick s = .next t) :
    t.lifecycleInv := by
  obtain ⟨hp, hlife, htransfer⟩ := hs
  cases hx : s.exec with
  | idle => exact absurd hx hb
  | busy cmd mpc loc =>
    by_cases hbegin : cmd = .beginBus
    · subst hbegin
      rw [tick, engineTurn_of_idle ((transferInv_iff_of_not_transfer hx rfl).1 htransfer)] at h
      exact micro_begin_lifecycleInv hp hx hlife h
    by_cases hend : cmd = .endBus
    · subst hend
      rw [tick, engineTurn_of_idle ((transferInv_iff_of_not_transfer hx rfl).1 htransfer)] at h
      exact micro_end_lifecycleInv hp hx hlife h
    obtain ⟨⟨hen, hms, hhs⟩, hgate⟩ := gates_of_lifecycleInv hbegin hend hx hlife
    obtain ⟨hrun', hen', hms', hhs', -⟩ :=
      gateView_eq_iff.1 (tick_gateView hbegin hend hp (readBack_of_lifecycleInv hlife) hx h)
    have honly : t.executesOnly cmd :=
      micro_executesOnly (executesOnly_of_busy ((engineTurn_exec s).trans hx)) h
    refine lifecycleInv_of_gates hbegin hend honly ?_ (by rwa [hrun']) (micro_readBack h)
    rw [hrun']
    exact ⟨hen'.trans hen, hms'.trans hms, hhs'.trans hhs⟩

/-! ## The shift engine over a micro-step -/

/-- A command that is no transfer starts no transfer (R56). -/
theorem runOp_shift {cmd : Instr} (hc : isTransfer cmd = false) {mpc : Nat} {loc : Locals} {op : MicroOp} {s t : State}
    (hop : (program cmd)[mpc]? = some op) (h : runOp cmd mpc loc op s = .next t) : t.shift = s.shift := by
  cases op with
  | send => cases hc.symm.trans (program_standsAt hop)
  | receive again => obtain ⟨r, m, l, -, rfl⟩ := runOp_receive h; rfl
  | _ => cases h; rfl

/-- A micro-step of a command that is no transfer leaves the shift engine Idle (R159). -/
theorem tick_transferInv_of_not_transfer {cmd : Instr} (hc : isTransfer cmd = false) {mpc : Nat} {loc : Locals}
    {s t : State} (hx : s.exec = .busy cmd mpc loc) (hs : s.transferInv) (h : tick s = .next t) : t.transferInv := by
  have hidle := (transferInv_iff_of_not_transfer hx hc).1 hs
  rw [tick, engineTurn_of_idle hidle] at h
  obtain ⟨hx', -⟩ | ⟨cmd', m, l, hx', ⟨op, hop, hr⟩ | ⟨-, rfl⟩⟩ := micro_cases h <;> cases hx.symm.trans hx'
  · obtain ⟨m', l', ht, -⟩ := runOp_exec hr
    exact (transferInv_iff_of_not_transfer ht hc).2 ((runOp_shift hc hop hr).trans hidle)
  · exact (transferInv_iff_of_idle rfl).2 hidle

/-- A micro-step of a transfer gives the next position what it needs: the write of DATA starts the exchange, a poll sees it
over or not yet, and past the read of DATA the next exchange can start (R55, R57, R122, R128). -/
theorem tick_transferInv_of_transfer {cmd : Instr} (hc : isTransfer cmd = true) {mpc : Nat} {loc : Locals}
    {s t : State} (hx : s.exec = .busy cmd mpc loc) (hs : s.transferInv) (h : tick s = .next t) : t.transferInv := by
  obtain ⟨hk, hat⟩ := (transferInv_iff_of_transfer hx hc).1 hs
  match mpc, hx, hat with
  | 0, hx, hidle =>
    cases h.symm.trans (tick_send hc hx hidle)
    exact (transferInv_iff_of_transfer (mpc := 1) rfl hc).2 ⟨hk, .inl ⟨rfl, afterSend_complete cmd loc s⟩⟩
  | 1, hx, .inl ⟨hbusy, hcf⟩ =>
    cases hn : s.engine.completesNow s.liveNow with
    | false =>
      cases h.symm.trans (tick_poll_in_vain hc hx hbusy hcf hn)
      exact (transferInv_iff_of_transfer (mpc := 1) (loc := { loc with s := s.status }) rfl hc).2
        ⟨hk, .inl ⟨hbusy, hcf⟩⟩
    | true =>
      cases h.symm.trans (tick_poll_completed hc hx hbusy hn)
      exact (transferInv_iff_of_transfer (mpc := 2) (loc := { loc with s := s.statusCompleted }) rfl hc).2
        ⟨hk, rfl, afterCompletion_complete .., Option.some_ne_none _⟩
  | 1, hx, .inr hover =>
    obtain ⟨hidle, hcf, -⟩ := id hover
    rw [tick, engineTurn_of_idle hidle, micro_poll hc hx, hcf] at h
    cases h
    exact (transferInv_iff_of_transfer (mpc := 2) (loc := { loc with s := s.status }) rfl hc).2 ⟨hk, hover⟩
  | 2, hx, hover =>
    obtain ⟨hidle, -, hrx⟩ := id hover
    obtain ⟨r, hr⟩ := Option.ne_none_iff_exists'.1 hrx
    cases h.symm.trans (tick_receive hc hx hidle hr)
    obtain hlt | hge := lt_or_ge loc.k (lastPosition cmd)
    · exact (transferInv_iff_of_transfer (afterReceive_exec_of_lt r hlt) hc).2 ⟨Fin.add_one_le_of_lt hlt, hidle⟩
    · exact (transferInv_iff_of_transfer (afterReceive_exec_of_le r hge) hc).2 ⟨hk, hover⟩
  | n + 3, hx, ⟨hidle, _⟩ =>
    have hend : (program cmd)[n + 3]? = none := by rw [program_transfer hc]; rfl
    cases h.symm.trans (tick_of_return hx hidle hend)
    exact (transferInv_iff_of_idle rfl).2 hidle

/-- A micro-step of a command in progress keeps the invariant. -/
theorem tick_inv {s t : State} (hb : s.exec ≠ .idle) (hs : s.Inv) (h : tick s = .next t) : t.Inv := by
  have hlife := tick_lifecycleInv hs hb h
  obtain ⟨hp, -, htransfer⟩ := hs
  have hparams : t.params = s.params := by
    obtain ⟨-, -, -, -, hengine, -⟩ := engineTurn_keeps s
    obtain ⟨-, -, hmicro, -⟩ := micro_keeps h
    exact hmicro.trans hengine
  refine ⟨by rwa [hparams], hlife, ?_⟩
  cases hx : s.exec with
  | idle => exact absurd hx hb
  | busy cmd mpc loc =>
    cases hc : isTransfer cmd with
    | false => exact tick_transferInv_of_not_transfer hc hx htransfer h
    | true => exact tick_transferInv_of_transfer hc hx htransfer h

/-! ## The invariant over a step -/

/-- Between commands the invariant is: legal parameters, the flag and the gate bits agree, the shift engine is Idle. -/
theorem inv_iff_of_idle {s : State} (hx : s.exec = .idle) :
    s.Inv ↔ s.params.legal = true ∧ s.gateBits s.running ∧ s.shift = .idle := by
  rw [State.Inv, lifecycleInv_iff_of_idle hx, transferInv_iff_of_idle hx]

/-- `begin` and `end` are issued where the flag and the gate bits have the value they will not be given (R101, R106). -/
theorem issued_switching (i : Instr) {v : Bool} (a : Nat) {s : State} (hrun : s.running = !v)
    (hbits : s.gateBits s.running) : (issued i s).switching v a 0 Locals.start := by
  rw [hrun] at hbits
  obtain ⟨hen, hms, hhs⟩ := hbits
  rw [State.switching, switched_of_lt (by omega), switched_of_lt (by omega), switched_of_lt (by omega)]
  exact ⟨hrun, hen, hms, hhs, by omega, by omega⟩

/-- A command whose gate is open is issued in the invariant: the flag and the gate bits are as its first position has them
(R100, R105, R152). -/
theorem issued_inv {i : Instr} {s : State} (hx : s.exec = .idle) (hs : s.Inv) (hgate : gateFailure i s.running = none) :
    (issued i s).Inv := by
  obtain ⟨hp, hbits, hidle⟩ := (inv_iff_of_idle hx).1 hs
  refine ⟨hp, ?_, ?_⟩
  · by_cases hbegin : i = .beginBus
    · subst hbegin
      exact (lifecycleInv_iff_of_begin (issued_exec ..)).2
        (issued_switching _ 4 (by simpa [gateFailure] using hgate) hbits)
    by_cases hend : i = .endBus
    · subst hend
      exact (lifecycleInv_iff_of_end (issued_exec ..)).2
        (issued_switching _ 0 (by simpa [gateFailure] using hgate) hbits)
    exact lifecycleInv_of_gates hbegin hend (executesOnly_of_busy rfl) hbits hgate (issued_readBack i s)
  · cases hc : isTransfer i with
    | false => exact (transferInv_iff_of_not_transfer rfl hc).2 hidle
    | true => exact (transferInv_iff_of_transfer (mpc := 0) rfl hc).2 ⟨Fin.zero_le _, hidle⟩

/-- A response leaves the invariant of a block between commands (R22, R86). -/
theorem respond_issued_inv {s : State} (i : Instr) (st : Status) (hx : s.exec = .idle) (hs : s.Inv) :
    (respond st 0 (issued i s)).Inv :=
  (inv_iff_of_idle (respond_exec ..)).2 ((inv_iff_of_idle hx).1 hs)

/-- The reset values have the gate bits 0 (R7, R42). -/
theorem restart_inv {s : State} (hp : s.params.legal = true) : (restart s).Inv := by
  obtain ⟨-, -, -, -, -, hen, hms, -, hhs⟩ := (Config.Params.legal_iff _).1 hp
  exact (inv_iff_of_idle (restart_exec s)).2
    ⟨hp, ⟨(State.enable_eq _).trans hen, (State.master_eq _).trans hms, (State.hispeed_eq _).trans hhs⟩, rfl⟩

/-- Settles O3: a step is an issue and a run of micro-steps, a response, a reset, a micro-step and the run after it, or a
turn of the Idle shift engine; each keeps the invariant. -/
theorem stepKeepsInvariant : Obligations.StepKeepsInvariant := by
  intro s t hs h
  have hT : ∀ u v : State, u.exec ≠ .idle → u.Inv → tick u = .next v → v.Inv := fun _ _ => tick_inv
  obtain ⟨-, ⟨w, i, rest, -, -, hexec⟩ | ⟨rest, -, -, rfl⟩ | ⟨hb, u, hu, hrun⟩ | ⟨hx, rfl⟩⟩ := step_cases h
  · have hs' : State.Inv { s with host := rest } := hs
    obtain ⟨hx, ⟨st, -, rfl⟩ | ⟨hgate, hrun⟩⟩ := exec_cases hexec
    · exact respond_issued_inv i st hx hs'
    · exact settle_keeps hT _ _ _ (issued_inv hx hs' hgate) hrun
  · obtain ⟨hp, -⟩ := hs
    exact restart_inv (s := { s with host := rest }) hp
  · exact settle_keeps hT _ _ _ (hT _ _ hb hs hu) hrun
  · obtain ⟨-, -, hidle⟩ := (inv_iff_of_idle hx).1 hs
    rwa [engineTurn_of_idle hidle]

end Sys2Proof.Machine
end

section
/-! SUPPORT. A command that makes no access to DATA, run from its issue to its response; `begin` and `end` and what they do
to CTRL and STATUS (40_lifecycle.md R100 to R108). -/

namespace Sys2Proof.Machine

/-! ## The run of a command that makes no access to DATA -/

/-- The operations with a determined effect: all but the accesses to DATA and the poll. -/
def MicroOp.isPlain : MicroOp → Bool
  | .send => false
  | .poll => false
  | .receive _ => false
  | _ => true

/-- The effect of an operation on the state and the locals; the controller's position apart (R10, R62, R65). -/
def MicroOp.effect (x : State × Locals) (op : MicroOp) : State × Locals :=
  let (s, loc) := x
  match op with
  | .gpio line dir => (s.record (.gpio line dir), loc)
  | .readCtrl => (s.record (.regRead .ctrl s.ctrl), { loc with c := s.ctrl })
  | .writeCtrl f =>
    ({ s with ctrl := f s.params loc.c }.record (.regWrite .ctrl (f s.params loc.c)), loc)
  | .readStatus => (s.record (.regRead .status s.status), { loc with s := s.status })
  | .writeStatus f =>
    ({ s with status := s.statusWritten (f s.params loc.s) }.record (.regWrite .status (f s.params loc.s)), loc)
  | .setRunning v => ({ s with running := v }, loc)
  | _ => (s, loc)

/-- A plain operation has its effect and moves the controller to the next position. -/
theorem runOp_of_plain {cmd : Instr} {mpc : Nat} {loc : Locals} {op : MicroOp} {s : State} (hop : op.isPlain = true) :
    runOp cmd mpc loc op (s.moveTo cmd mpc loc)
      = .next ((MicroOp.effect (s, loc) op).1.moveTo cmd (mpc + 1) (MicroOp.effect (s, loc) op).2) := by
  cases op with
  | send | poll | receive again => cases hop
  | _ => rfl

/-- No plain operation starts a transfer (R56). -/
theorem effect_shift (x : State × Locals) (op : MicroOp) : (MicroOp.effect x op).1.shift = x.1.shift := by
  cases op <;> rfl

/-- With no transfer in progress a run of plain operations to the end of the pseudocode has the effect of each in turn, and
returns `(Ok, acc)`. -/
theorem settle_of_plain {cmd : Instr} (n : Nat) {ops : List MicroOp} (hplain : ∀ op ∈ ops, op.isPlain = true) {mpc : Nat}
    {loc : Locals} {s : State} (hops : (program cmd).drop mpc = ops) (hs : s.shift = .idle) :
    settle (n + ops.length + 1) (s.moveTo cmd mpc loc)
      = .next (respond .ok (ops.foldl MicroOp.effect (s, loc)).2.acc (ops.foldl MicroOp.effect (s, loc)).1) := by
  induction ops generalizing mpc loc s with
  | nil => exact settle_return (mpc := mpc) rfl hs (List.getElem?_eq_none (List.drop_eq_nil_iff.1 hops))
  | cons op ops ih =>
    have hop : (program cmd)[mpc]? = some op := by rw [← List.head?_drop, hops]; rfl
    have hrest : (program cmd).drop (mpc + 1) = ops := by rw [← List.tail_drop, hops]; rfl
    obtain ⟨hhead, htail⟩ := List.forall_mem_cons.1 hplain
    rw [List.length_cons, ← Nat.add_assoc, settle_op (s := s.moveTo cmd mpc loc) rfl hs hop (runOp_of_plain hhead)]
    exact ih htail hrest ((effect_shift _ _).trans hs)

/-- A command of plain operations whose gate is open runs from its issue to its response in one step (log 7). -/
theorem exec_of_plain {i : Instr} {s : State} (hready : s.ready) (hroom : s.roomy)
    (hgate : gateFailure i s.running = none) (hplain : ∀ op ∈ program i, op.isPlain = true)
    (hlen : (program i).length < 16) :
    exec i s = .next (respond .ok ((program i).foldl MicroOp.effect (issued i s, Locals.start)).2.acc
      ((program i).foldl MicroOp.effect (issued i s, Locals.start)).1) := by
  obtain ⟨hx, hs⟩ := hready
  have hpace : 16 ≤ s.pace := (Nat.le_add_left ..).trans hroom
  obtain ⟨n, hn⟩ : ∃ n, s.pace = n + (program i).length + 1 := ⟨s.pace - ((program i).length + 1), by omega⟩
  have hrun := settle_of_plain n hplain (loc := Locals.start) (s := issued i s) (mpc := 0) rfl hs
  rw [← hn] at hrun
  rw [exec_of_idle i hx, hgate]
  exact hrun

/-! ## `begin` and `end` -/

/-- A command whose gate fails responds with its status and does nothing else (R101, R106). -/
theorem exec_of_gateFailure {i : Instr} {s : State} {st : Status} (hx : s.exec = .idle)
    (hgate : gateFailure i s.running = some st) :
    exec i s = .next { s with history := s.history ++ [.cmd (encode i), .resp st 0] } := by
  rw [exec_of_idle i hx, hgate]
  simp [respond, issued, hx]

/-- Settles O25: `begin` while Stopped is a run of plain operations, and its write of STATUS stores what it writes; while
Running its gate fails. -/
theorem beginCommand : Obligations.BeginCommand := by
  have hword : encode .beginBus = 0x0100000000 := by decide
  refine fun s => ⟨fun hp hready hroom hrun => ?stopped, fun hx hrun => ?running⟩
  case stopped =>
    rw [exec_of_plain hready hroom (by rw [hrun]; rfl) (by decide) (by decide)]
    obtain ⟨hx, -⟩ := hready
    simpa [program, beginProgram, MicroOp.effect, respond, State.record, issued, Locals.start, State.statusWritten,
      ctrlBegun, statusBegun, hword, hx] using statusWritten_begun hp
  case running => exact exec_of_gateFailure (i := .beginBus) hx (by rw [hrun]; rfl)

/-- Settles O26: `end` while Running is a run of plain operations, and its write of STATUS stores what it writes; while
Stopped its gate fails. -/
theorem endCommand : Obligations.EndCommand := by
  have hword : encode .endBus = 0x0200000000 := by decide
  refine fun s => ⟨fun hp hready hroom hrun => ?running, fun hx hrun => ?stopped⟩
  case running =>
    rw [exec_of_plain hready hroom (by rw [hrun]; rfl) (by decide) (by decide)]
    obtain ⟨hx, -⟩ := hready
    simpa [program, endProgram, MicroOp.effect, respond, State.record, issued, Locals.start, State.statusWritten,
      ctrlEnded, statusEnded, hword, hx] using statusWritten_ended hp
  case stopped => exact exec_of_gateFailure (i := .endBus) hx (by rw [hrun]; rfl)

/-! ## `begin` and then `end` -/

/-- Setting ENABLE and MASTER where both were 0 and then clearing them restores CTRL (R108). -/
theorem ctrlEnded_ctrlBegun {s : State} (hen : s.enable = false) (hms : s.master = false) :
    ctrlEnded s.params (ctrlBegun s.params s.ctrl) = s.ctrl := by
  rw [State.enable_eq] at hen
  rw [State.master_eq] at hms
  refine byte_ext fun j _ => ?_
  rw [getLsbD_ctrlEnded, getLsbD_ctrlBegun]
  by_cases hjen : j = s.params.enableBit.val
  · rw [hjen, hen]; simp
  by_cases hjms : j = s.params.masterBit.val
  · rw [hjms, hms]; simp
  simp [hjen, hjms]

/-- Setting HISPEED where it was 0 and then clearing it restores STATUS (R108). -/
theorem statusEnded_statusBegun {s : State} (hhs : s.hispeed = false) :
    statusEnded s.params (statusBegun s.params s.status) = s.status := by
  rw [State.hispeed_eq] at hhs
  refine byte_ext fun j _ => ?_
  rw [getLsbD_statusEnded, getLsbD_statusBegun]
  by_cases hj : j = s.params.hispeedBit.val
  · rw [hj, hhs]; simp
  simp [hj]

/-- Settles O27: a Stopped state of the invariant has the gate bits 0, so what `end` clears is what `begin` set. -/
theorem endRestoresWhatBeginFound : Obligations.EndRestoresWhatBeginFound := by
  intro s hs hx hroom hrun
  obtain ⟨hp, hbits, hidle⟩ := (inv_iff_of_idle hx).1 hs
  rw [hrun] at hbits
  obtain ⟨hen, hms, hhs⟩ := hbits
  obtain ⟨hbegin, -⟩ := beginCommand s
  obtain ⟨hend, -⟩ := endCommand _
  exact ⟨_, _, hbegin hp ⟨hx, hidle⟩ hroom hrun, hend hp ⟨hx, hidle⟩ hroom rfl, ctrlEnded_ctrlBegun hen hms,
    statusEnded_statusBegun hhs, rfl⟩

end Sys2Proof.Machine
end

section
/-! SUPPORT. The transfers whose exchanges all complete for certain, with the bytes sent and received written out
(41_transfer.md R121, R130, R140). -/

namespace Sys2Proof.Machine

/-! ## The bytes sent and received -/

/-- The byte a transfer executed from `s` receives at wire position `k` (R58). -/
def receivedAt (cmd : Instr) (s : State) (k : Nat) : Byte :=
  received (byteToSend s.params cmd (Fin.ofNat 4 k)) (exchanges cmd k s)

/-- `transferByte` sends its argument (R121). -/
theorem byteToSend_transferByte (p : Config.Params) (b : Byte) : byteToSend p (.transferByte b) 0 = b := by
  show (b.setWidth 32 >>> 0).setWidth 8 = b
  simp

/-- `transferWord` sends the high byte of its argument first (R130). -/
theorem byteToSend_transferWord_zero (p : Config.Params) (w : Half) :
    byteToSend p (.transferWord w) 0 = w.extractLsb' 8 8 := by
  show (w.setWidth 32 >>> 8).setWidth 8 = w.extractLsb' 8 8
  ext j hj
  simp
  omega

/-- `transferWord` sends the low byte of its argument second (R130). -/
theorem byteToSend_transferWord_one (p : Config.Params) (w : Half) :
    byteToSend p (.transferWord w) 1 = w.extractLsb' 0 8 := by
  show (w.setWidth 32 >>> 0).setWidth 8 = w.extractLsb' 0 8
  ext j hj
  simp

/-- A transfer whose `n` exchanges all complete for certain responds Ok with the bytes received, each in its place (R121,
R130, R140). -/
theorem exec_eq_respond_placed {i : Instr} (hi : isTransfer i = true) {n : Nat} (hn : (lastPosition i).val + 1 = n)
    {s : State} (hready : s.ready) (hp : s.roomy) (ha : s.answers n) :
    exec i s = .next (respond .ok (placed s.params i (receivedAt i (issued i s)) n) (exchanges i n (issued i s))) := by
  subst hn
  rw [exec_of_answers hi hready hp ha, gathered_eq_placed (r := receivedAt i (issued i s)) fun _ _ => rfl, issued_params]

/-! ## The three transfers -/

/-- Settles O34: `transferByte` is one exchange, of its argument, and one byte is the value's low byte. -/
theorem transferByteExchangesOneByte : Obligations.TransferByteExchangesOneByte := by
  intro b s hready hp ha
  have hb : byteToSend s.params (.transferByte b) 0 = b := byteToSend_transferByte s.params b
  have hreceived : receivedAt (.transferByte b) (issued (.transferByte b) s) 0 = received b (issued (.transferByte b) s) :=
    congrArg (received · _) hb
  have hexchange : exchanges (.transferByte b) 1 (issued (.transferByte b) s) = exchange b (issued (.transferByte b) s) :=
    congrArg (exchange · _) hb
  rw [exec_eq_respond_placed rfl (n := 1) rfl hready hp ha, placed_transferByte, hreceived, hexchange]

/-- The two exchanges of `transferWord`, of the bytes it sends. -/
theorem exec_transferWord {w : Half} {s : State} {hi lo : Byte} (hhi : byteToSend s.params (.transferWord w) 0 = hi)
    (hlo : byteToSend s.params (.transferWord w) 1 = lo) (hready : s.ready) (hp : s.roomy) (ha : s.answers 2) :
    let s0 := issued (.transferWord w) s
    let s1 := exchange hi s0
    exec (.transferWord w) s
      = .next (respond .ok ((received hi s0 ++ received lo s1 : Half).setWidth 32) (exchange lo s1)) := by
  subst hhi hlo
  rw [exec_eq_respond_placed rfl (n := 2) rfl hready hp ha, placed_transferWord]
  rfl

/-- Settles O35: `transferWord` sends the high byte and then the low byte, and of two bytes the first is the high one. -/
theorem transferWordSendsHighByteFirst : Obligations.TransferWordSendsHighByteFirst :=
  fun w s => exec_transferWord (byteToSend_transferWord_zero s.params w) (byteToSend_transferWord_one s.params w)

/-- Settles O36: `transferDWord` sends the bytes at the indices of `DWORD_ORDER`, and four bytes stand where it takes them
from. -/
theorem transferDWordFollowsDwordOrder : Obligations.TransferDWordFollowsDwordOrder := by
  intro d s hready hp ha p b place s0 s1 s2 s3
  rw [exec_eq_respond_placed rfl (n := 4) rfl hready hp ha, placed_transferDWord]
  rfl

end Sys2Proof.Machine
end

section
/-! SUPPORT. The poll that is not answered (41_transfer.md R122, R177): a transfer some of whose exchanges complete comes to
the poll of the next one, and a poll whose exchange never completes is repeated without end. -/

namespace Sys2Proof.Machine

/-! ## A schedule that completes no more than `k` exchanges -/

/-- An exchange uses up one completion of the script. -/
theorem count_true_afterExchange (e : Schedule) :
    e.afterExchange.script.count true = e.script.count true - 1 := by
  show (e.script.dropWhile (!·)).tail.count true = e.script.count true - 1
  induction e.script with
  | nil => rfl
  | cons taken rest ih =>
    cases taken with
    | true => simp
    | false => simpa using ih

/-- Where `k + n` exchanges complete and no more, `n` more do after the first `k` of a transfer. -/
theorem stallsAfter_exchanges (cmd : Instr) (k : Nat) {n : Nat} {s : State} (h : s.stallsAfter (k + n)) :
    (exchanges cmd k s).stallsAfter n := by
  induction k generalizing n with
  | zero => simpa [exchanges] using h
  | succ k ih =>
    obtain ⟨hcount, hopen⟩ := ih (n := n + 1) (by rwa [Nat.add_right_comm, Nat.add_assoc] at h)
    exact ⟨(count_true_afterExchange _).trans (by rw [hcount]; rfl), hopen⟩

/-! ## What the exchanges leave of a state -/

/-- What an exchange leaves of a state: all but the receive value, COMPLETE, the history, the peer's choice and what the
exchange takes of the script. -/
def State.besideExchanges (s : State) : State :=
  { s with rx := none, status := s.statusCleared, history := [], choice := 0, engine := { s.engine with script := [] } }

theorem exchange_beside (b : Byte) (s : State) : (exchange b s).besideExchanges = s.besideExchanges := by
  have hstatus : (exchange b s).statusCleared = s.statusCleared := statusCompleted_cleared s
  simp only [State.besideExchanges, hstatus]
  rfl

theorem exchanges_beside (cmd : Instr) (k : Nat) (s : State) :
    (exchanges cmd k s).besideExchanges = s.besideExchanges := by
  induction k with
  | zero => rfl
  | succ k ih => exact (exchange_beside _ _).trans ih

/-! ## Polls in vain -/

/-- A poll of a transfer: the script lets every opportunity pass and nothing past it settles the exchange, so the polls read
COMPLETE = 0 until the script is used up, and the run ends at the poll (R122, log 7). -/
theorem settle_polls_in_vain {cmd : Instr} (hc : isTransfer cmd = true) (s : State) (b : Byte)
    (ho : s.engine.afterScript s.liveNow ≠ .completes) (script : List Bool) (hscript : script.count true = 0) (n : Nat)
    (hn : script.length ≤ n) (loc : Locals) (h : List Event) :
    ∃ last, settle n (polling b cmd loc h script s)
      = .next (polling b cmd { loc with s := last }
          (h ++ List.replicate script.length (.regRead .status s.statusCleared)) [] s) := by
  induction script generalizing n loc h with
  | nil =>
    have hrest : atRest (polling b cmd loc h [] s) = true := atRest_of_open_poll (loc := loc) hc rfl rfl rfl ho
    exact ⟨loc.s, by simp [settle_of_atRest hrest]⟩
  | cons taken rest ih =>
    cases taken with
    | true => simp at hscript
    | false =>
      obtain ⟨n, rfl⟩ := Nat.exists_eq_add_of_le' (Nat.one_le_of_lt hn)
      have hrest : atRest (polling b cmd loc h (false :: rest) s) = false := by
        simp [atRest, State.isIdle, awaitsPeer, polling]
      have htick : tick (polling b cmd loc h (false :: rest) s) = .next (polling b cmd { loc with s := s.statusCleared }
          (h ++ [.regRead .status s.statusCleared]) rest s) := micro_poll_again hc s b loc h rest
      obtain ⟨last, hlast⟩ := ih (by simpa using hscript) n (Nat.le_of_succ_le_succ hn)
        { loc with s := s.statusCleared } (h ++ [.regRead .status s.statusCleared])
      refine ⟨last, ?_⟩
      rw [settle, hrest, htick]
      simpa [List.replicate_succ] using hlast

/-- A transfer just come to a wire position whose exchange nothing settles: it writes its byte and polls (R55, R122). -/
theorem settle_send_unanswered {cmd : Instr} (hc : isTransfer cmd = true) {u : State} {loc : Locals}
    (hx : u.exec = .busy cmd 0 loc) (hs : u.shift = .idle) (hstall : u.stallsAfter 0) {n : Nat}
    (hn : u.engine.script.length < n) :
    ∃ last, settle n u = .next (polling (byteToSend u.params cmd loc.k) cmd { loc with s := last }
      (u.history ++ [.regWrite .data (byteToSend u.params cmd loc.k)]
        ++ List.replicate u.engine.script.length (.regRead .status u.statusCleared)) [] u) := by
  obtain ⟨hcount, hopen⟩ := hstall
  obtain ⟨n, rfl⟩ := Nat.exists_eq_add_of_le' (Nat.one_le_of_lt hn)
  obtain ⟨last, hlast⟩ := settle_polls_in_vain hc u (byteToSend u.params cmd loc.k) hopen u.engine.script hcount n
    (Nat.le_of_lt_succ hn) loc (u.history ++ [.regWrite .data (byteToSend u.params cmd loc.k)])
  refine ⟨last, ?_⟩
  rw [settle_of_tick hx hs (tick_send hc hx hs), ← hlast]
  rfl

/-- Settles O40: the first `k` exchanges come to wire position `k`, whose byte is written and polled for in vain; the
exchanges left the rest of the state as the issue had it. -/
theorem unansweredTransferWaitsAtItsPoll : Obligations.UnansweredTransferWaitsAtItsPoll := by
  intro i s k hi hready hp hk hstall s0 u b
  obtain ⟨hx, hs⟩ := hready
  obtain ⟨hcount, -⟩ := id hstall
  have hanswers : s0.answers k := .inl hcount.ge
  obtain ⟨n, loc, hpos, hacc, hroom, hrun⟩ := settle_exchanges hi (s := s0) hs rfl hp k hk hanswers
  have hn : u.engine.script.length < n := by
    have hroom : u.engine.script.length + 16 ≤ n + 3 * k := hroom
    omega
  obtain ⟨last, hlast⟩ := settle_send_unanswered hi (u := u.moveTo i 0 loc) rfl ((exchanges_shift i k s0).trans hs)
    (stallsAfter_exchanges i k (s := s0) hstall) hn
  have hbeside : u.besideExchanges = s0.besideExchanges := exchanges_beside i k s0
  have hparams : u.params = s.params := (congrArg State.params hbeside :)
  have hlive : u.liveNow = s.liveNow := (congrArg State.liveNow hbeside :)
  have hcleared : u.statusCleared = s.statusCleared := (congrArg State.status hbeside :)
  have hengine : { u.engine with script := [] } = { s.engine with script := [] } := (congrArg State.engine hbeside :)
  have hbyte : byteToSend (u.moveTo i 0 loc).params i loc.k = b := by rw [hpos, moveTo_params, hparams]
  refine ⟨{ loc with s := last }, _, hpos, hacc, ?run, ?complete, rfl⟩
  case run =>
    rw [exec_of_idle i hx, gateFailure_of_transfer hi]
    refine hrun.trans (hlast.trans ?_)
    rw [hbyte, ← hlive, ← hcleared, ← hengine]
    rfl
  case complete =>
    have hcomplete : s.statusCleared &&& u.params.CF = 0 := by rw [hparams]; exact statusCleared_and s
    exact decide_eq_false (not_not_intro hcomplete)

/-! ## The poll that is never answered -/

/-- Only a transfer polls, at position 1 of `XferByte` (R122, R128). -/
theorem poll_at {cmd : Instr} {mpc : Nat} (h : (program cmd)[mpc]? = some .poll) : isTransfer cmd = true ∧ mpc = 1 := by
  have hall : ∀ p ∈ (program cmd).zipIdx, p.1 = .poll → isTransfer cmd = true ∧ p.2 = 1 := by
    cases cmd <;>
      simp [program, beginProgram, endProgram, transferByteProgram, transferWordProgram, transferDWordProgram,
        xferProgram, setClockDividerProgram, setDataModeProgram, isTransfer]
  exact hall (.poll, mpc) (List.mk_mem_zipIdx_iff_getElem?.2 h) rfl

theorem poll_of_atPoll {s : State} {cmd : Instr} {mpc : Nat} {loc : Locals} (hx : s.exec = .busy cmd mpc loc)
    (h : atPoll s = true) : isTransfer cmd = true ∧ mpc = 1 := by
  refine poll_at ?_
  simp only [atPoll, hx] at h
  split at h
  · assumption
  · cases h

/-- A transfer in progress that never completes: the script is used up and the schedule lets it hang (R59, R177). -/
theorem busy_of_neverCompletes {s : State} (h : neverCompletes s = true) :
    ∃ tx live, s.shift = .busy tx live ∧ s.engine.script = [] ∧ s.engine.afterScript live = .never := by
  cases hs : s.shift with
  | idle => simp [neverCompletes, hs] at h
  | busy tx live => exact ⟨tx, live, rfl, by simpa [neverCompletes, hs] using h⟩

/-- A schedule with its script used up that lets transfers of this kind hang, at an opportunity (log 3). -/
theorem never_opportunity {e : Schedule} {live : Bool} (he : e.script = []) (hn : e.afterScript live = .never) :
    e.completesNow live = false ∧ e.next live = e := by
  simp [Schedule.completesNow, Schedule.next, he, hn]

/-- At a poll whose exchange never completes a step is one more poll in vain (R122, R177, log 7). -/
theorem step_of_never {s : State} {cmd : Instr} {loc : Locals} (hc : isTransfer cmd = true) (hx : s.exec = .busy cmd 1 loc)
    (hnever : neverCompletes s = true) (hcf : s.complete = false) (hs : s.undisturbed) :
    step s = .next (afterPollInVain cmd loc s.engine s) := by
  obtain ⟨tx, live, hbusy, he, hrule⟩ := busy_of_neverCompletes hnever
  obtain ⟨hnow, hnext⟩ := never_opportunity he hrule
  obtain ⟨hm, hw⟩ := hs
  have hpoll := tick_poll_in_vain hc hx hbusy hcf hnow
  rw [hnext] at hpoll
  have hrest : atRest (afterPollInVain cmd loc s.engine s) = true :=
    atRest_of_open_poll hc rfl hbusy he fun hcompletes => by cases hrule.symm.trans hcompletes
  rw [step_of_busy (by simp [hx]) hm hw, hpoll]
  exact settle_of_atRest hrest _

/-- Settles O41: each step is one more poll in vain, after which the poll stands as it did. -/
theorem unansweredPollNeverEnds : Obligations.UnansweredPollNeverEnds := by
  intro s cmd mpc loc hx hat hnever hcf hm hw n
  obtain ⟨hc, rfl⟩ := poll_of_atPoll hx hat
  clear hat
  induction n generalizing s loc with
  | zero => simp [Host.Core.run, ← hx]
  | succ n ih =>
    have hstep : step s = .next (afterPollInVain cmd loc s.engine s) := step_of_never hc hx hnever hcf ⟨hm, hw⟩
    have hrest := ih (afterPollInVain cmd loc s.engine s) { loc with s := s.status } hnever hcf hm hw rfl
    refine (run_of_step Sys2Proof.core hstep n).trans (hrest.trans ?_)
    simp [afterPollInVain, List.replicate_succ]

end Sys2Proof.Machine
end

section
/-! SUPPORT. What the transfers leave unchanged and what they do not read (41_transfer.md R120, R121): the frame of the
transfers, and that `running` makes no difference to them. -/

namespace Sys2Proof.Machine

/-! ## The frame of the transfers -/

/-- What the transfers leave of a state: all but the receive value, COMPLETE, the shift engine, the controller, the history,
the peer's choice and the progress of the schedule. -/
def State.outsideTransfer (s : State) : State :=
  { s with
    rx := none
    status := s.status &&& ~~~s.params.CF
    shift := .idle
    exec := .idle
    history := []
    choice := 0
    engine := { s.engine with script := [], opportunity := 0 } }

theorem outsideTransfer_status {s : State} {v : Byte} (h : v &&& ~~~s.params.CF = s.status &&& ~~~s.params.CF) :
    { s with status := v }.outsideTransfer = s.outsideTransfer := by
  simp [State.outsideTransfer, h]

/-- The shift engine sets COMPLETE and moves its schedule on, but does not change the schedule's rules (R57). -/
theorem engineTurn_outsideTransfer (s : State) : (engineTurn s).outsideTransfer = s.outsideTransfer := by
  obtain ⟨e, he, hlive, hdead⟩ | ⟨tx, live, e, -, he, hlive, hdead⟩ := engineTurn_cases s
  · simp [he, State.outsideTransfer, hlive, hdead]
  · have hstatus : State.statusCompleted { s with engine := e } &&& ~~~s.params.CF = s.status &&& ~~~s.params.CF :=
      statusCompleted_outside s
    simp [he, State.outsideTransfer, hlive, hdead, hstatus]

/-- The operations of a transfer are those of `XferByte` (R121, R128, R130, R140). -/
theorem op_of_transfer {i : Instr} (hi : isTransfer i = true) {mpc : Nat} {op : MicroOp}
    (hop : (program i)[mpc]? = some op) : op = .send ∨ op = .poll ∨ op = .receive 0 := by
  rw [program_transfer hi] at hop
  simpa [xferProgram] using List.mem_of_getElem? hop

/-- A transfer writes neither CTRL nor `running`, and of STATUS only COMPLETE (R55, R120). -/
theorem runOp_outsideTransfer {i : Instr} (hi : isTransfer i = true) {s t : State} {mpc : Nat} {loc : Locals}
    {op : MicroOp} (hop : (program i)[mpc]? = some op) (h : runOp i mpc loc op s = .next t) :
    t.outsideTransfer = s.outsideTransfer := by
  obtain rfl | rfl | rfl := op_of_transfer hi hop
  · obtain ⟨b, -, rfl⟩ := runOp_send h
    exact outsideTransfer_status (v := s.statusCleared) (statusCleared_outside s)
  · cases h; rfl
  · obtain ⟨r, m, l, -, rfl⟩ := runOp_receive h; rfl

/-- A transfer writes nothing back to a register. -/
theorem readBack_of_transfer {i : Instr} (hi : isTransfer i = true) {s : State} (hs : s.executesOnly i) : s.readBack := by
  intro cmd mpc loc op hx hop
  obtain rfl := hs cmd mpc loc hx
  obtain rfl | rfl | rfl := op_of_transfer hi hop <;> trivial

/-- The transfers, executed or going on, from any state. -/
theorem outsideTransfer_of_transfer {i : Instr} (hi : isTransfer i = true) {s t : State}
    (h : exec i s = .next t ∨ continues i s t) : t.outsideTransfer = s.outsideTransfer := by
  have hE : ∀ u : State, u.outsideTransfer = s.outsideTransfer → (engineTurn u).outsideTransfer = s.outsideTransfer :=
    fun u hu => (engineTurn_outsideTransfer u).trans hu
  have hO : ∀ (u v : State) (mpc : Nat) (loc : Locals) (op : MicroOp), (program i)[mpc]? = some op → op.readFresh loc u →
      u.outsideTransfer = s.outsideTransfer → runOp i mpc loc op u = .next v → v.outsideTransfer = s.outsideTransfer :=
    fun _ _ _ _ _ hop _ hu hv => (runOp_outsideTransfer hi hop hv).trans hu
  obtain hx | hx := h
  · exact exec_keeps_view (view := State.outsideTransfer) hE hO (fun _ _ _ hu => hu) rfl hx
  · obtain ⟨⟨mpc, loc, hbusy⟩, -⟩ := id hx
    have honly := executesOnly_of_busy hbusy
    exact (continues_keeps (fun u v _ => tick_keeps_view (view := State.outsideTransfer) hE hO (fun _ _ _ hu => hu) u v)
      ⟨rfl, readBack_of_transfer hi honly, honly⟩ hx).1

/-- Settles O45: each field of the frame is read off the part of the state that the transfers leave. -/
theorem transferFrame : Obligations.TransferFrame := by
  intro i s t hi h
  have hview := outsideTransfer_of_transfer hi h
  simp only [State.outsideTransfer, State.mk.injEq, Schedule.mk.injEq, true_and, and_true] at hview
  obtain ⟨hrunning, hctrl, hstatus, hmark, hparams, hpeer, ⟨hlive, hdead⟩, hhost, hpace⟩ := hview
  rw [hparams] at hstatus
  exact ⟨hrunning, hctrl, hstatus, hmark, hparams, hpeer, hhost, hpace, hlive, hdead⟩

/-! ## A change of the state that a command does not see -/

/-- A host that does not wait issues a word at once (R194). -/
theorem issueAtOnce_of_not_hostWaits {s : State} (h : ¬ s.hostWaits) : ∃ w rest, s.host = .issueAtOnce w :: rest := by
  simpa [State.hostWaits] using h

/-- A command issued at once while another executes is refused (R176). -/
theorem step_of_issueAtOnce_busy {s : State} {w : CommandWord} {rest : List HostMove} (hb : s.exec ≠ .idle)
    (hm : s.mark = none) (hh : s.host = .issueAtOnce w :: rest) : step s = .refused .commandWhileBusy := by
  cases hx : s.exec with
  | idle => exact absurd hx hb
  | busy cmd mpc loc => simp [step_of_unmarked hm, hostTurn, hh, present, hx]

/-- The change `f` of a state in which `P` holds is seen by no micro-step, nor by what decides which micro-steps a step
shows: each does the same where it was made. -/
structure Unseen (P : State → Prop) (f : State → State) : Prop where
  keeps : ∀ u v, P u → tick u = .next v → P v
  tick : ∀ u, P u → tick (f u) = mapNext f (tick u)
  atRest : ∀ u, atRest (f u) = atRest u
  exec : ∀ u, (f u).exec = u.exec
  mark : ∀ u, (f u).mark = u.mark
  host : ∀ u, (f u).host = u.host
  pace : ∀ u, (f u).pace = u.pace

section Unseen
variable {P : State → Prop} {f : State → State} (hf : Unseen P f) {s : State}
include hf

/-- What no micro-step sees, no run of micro-steps sees. -/
theorem settle_unseen (n : Nat) (hs : P s) : settle n (f s) = mapNext f (settle n s) := by
  induction n generalizing s with
  | zero => rfl
  | succ n ih =>
    rw [settle, settle, hf.atRest, hf.tick s hs]
    split
    · rfl
    · cases ht : tick s with
      | next t => exact ih (hf.keeps s t hs ht)
      | fault _ => rfl
      | refused _ => rfl

theorem settleStep_unseen (hs : P s) : settleStep (f s) = mapNext f (settleStep s) := by
  rw [settleStep, hf.pace]
  exact settle_unseen hf s.pace hs

/-- What no micro-step sees, a step that goes on with a command does not see. -/
theorem step_unseen (hs : P s) (hb : s.exec ≠ .idle) : step (f s) = mapNext f (step s) := by
  have hb' : (f s).exec ≠ .idle := by rwa [hf.exec]
  cases hm : s.mark with
  | some m => cases m <;> simp only [step, turn, hf.mark, hm] <;> rfl
  | none =>
    have hm' : (f s).mark = none := (hf.mark s).trans hm
    by_cases hw : s.hostWaits
    · have hw' : (f s).hostWaits := by rwa [State.hostWaits, hf.host]
      rw [step_of_busy hb hm hw, step_of_busy hb' hm' hw', hf.tick s hs]
      cases ht : tick s with
      | next t => exact settleStep_unseen hf (hf.keeps s t hs ht)
      | fault _ => rfl
      | refused _ => rfl
    · obtain ⟨w, rest, hh⟩ := issueAtOnce_of_not_hostWaits hw
      rw [step_of_issueAtOnce_busy hb hm hh, step_of_issueAtOnce_busy hb' hm' ((hf.host s).trans hh)]
      rfl

/-- What no micro-step and no issue sees, a transfer does not see where it is executed: it has no gate (R120). -/
theorem exec_transfer_unseen {i : Instr} (hi : isTransfer i = true) (hs : P (issued i s))
    (hissued : issued i (f s) = f (issued i s)) : exec i (f s) = mapNext f (exec i s) := by
  by_cases hx : s.exec = .idle
  · rw [exec_of_idle i hx, exec_of_idle i ((hf.exec s).trans hx), gateFailure_of_transfer hi, gateFailure_of_transfer hi,
      hissued]
    exact settleStep_unseen hf hs
  · rw [exec_of_busy i hx, exec_of_busy i (by rwa [hf.exec])]
    rfl

end Unseen

/-! ## `running` makes no difference to a transfer -/

/-- The state with the lifecycle flag at `r`. -/
def State.withRunning (r : Bool) (s : State) : State := { s with running := r }

/-- The shift engine does not read `running`. -/
theorem engineTurn_withRunning (r : Bool) (s : State) : engineTurn (s.withRunning r) = (engineTurn s).withRunning r := by
  cases hs : s.shift with
  | idle => rw [engineTurn_of_idle hs, engineTurn_of_idle (s := s.withRunning r) hs]
  | busy tx live =>
    rw [engineTurn_of_busy hs, engineTurn_of_busy (s := s.withRunning r) hs, apply_ite (State.withRunning r)]
    rfl

/-- No operation of `XferByte` reads or writes `running` (R120). -/
theorem runOp_withRunning (r : Bool) {i : Instr} (hi : isTransfer i = true) {mpc : Nat} {op : MicroOp}
    (hop : (program i)[mpc]? = some op) (loc : Locals) (s : State) :
    runOp i mpc loc op (s.withRunning r) = mapNext (State.withRunning r) (runOp i mpc loc op s) := by
  obtain rfl | rfl | rfl := op_of_transfer hi hop
  · obtain ⟨tx, live, hs, h⟩ | ⟨hs, h⟩ := memWrite_data_cases (byteToSend s.params i loc.k) s
    · simp only [runOp, h, memWrite_data_of_busy (s := s.withRunning r) _ hs]; rfl
    · simp only [runOp, h, memWrite_data_of_idle (s := s.withRunning r) _ hs]; rfl
  · rfl
  · obtain ⟨tx, live, hs, h⟩ | ⟨hs, hr, h⟩ | ⟨v, hs, hr, h⟩ := memRead_data_cases s
    · simp only [runOp, h, memRead_data_of_busy (s := s.withRunning r) hs]; rfl
    · simp only [runOp, h, memRead_data_of_unwritten (s := s.withRunning r) hs hr]; rfl
    · simp only [runOp, h, memRead_data_of_idle (s := s.withRunning r) hs hr, afterRead, mapNext]
      split <;> rfl

/-- No micro-step of a transfer reads or writes `running` (R120). -/
theorem micro_withRunning (r : Bool) {i : Instr} (hi : isTransfer i = true) {s : State} (hs : s.executesOnly i) :
    micro (s.withRunning r) = mapNext (State.withRunning r) (micro s) := by
  cases hx : s.exec with
  | idle => simp [micro, State.withRunning, hx, mapNext]
  | busy cmd mpc loc =>
    obtain rfl := hs cmd mpc loc hx
    have hx' : (s.withRunning r).exec = .busy cmd mpc loc := hx
    simp only [micro, hx, hx']
    cases hop : (program cmd)[mpc]? with
    | none => rfl
    | some op => exact runOp_withRunning r hi hop loc s

/-- The shift engine does not change which command is in progress. -/
theorem engineTurn_executesOnly {i : Instr} {s : State} (hs : s.executesOnly i) : (engineTurn s).executesOnly i := by
  simpa [State.executesOnly] using hs

/-- A change of `running` is seen by nothing while only a transfer is in progress (R120). -/
theorem unseen_withRunning (r : Bool) {i : Instr} (hi : isTransfer i = true) :
    Unseen (State.executesOnly i) (State.withRunning r) where
  keeps _ _ hu h := micro_executesOnly (engineTurn_executesOnly hu) h
  tick u hu := by
    rw [tick, engineTurn_withRunning, micro_withRunning r hi (engineTurn_executesOnly hu), tick]
  atRest _ := rfl
  exec _ := rfl
  mark _ := rfl
  host _ := rfl
  pace _ := rfl

/-- Settles O43: no micro-step of a transfer sees a change of `running`, and by its frame a transfer leaves the flag. -/
theorem transfersDoNotReadOrWriteRunning : Obligations.TransfersDoNotReadOrWriteRunning := by
  intro i r s hi
  have hf := unseen_withRunning r hi
  refine ⟨exec_transfer_unseen hf hi (executesOnly_of_busy rfl) rfl, fun mpc loc hx => ?step, fun t h => ?flag⟩
  case step => exact step_unseen hf (executesOnly_of_busy hx) (by simp [hx])
  case flag =>
    obtain ⟨hrunning, -⟩ := transferFrame i s t hi h
    exact hrunning

end Sys2Proof.Machine
end

section
/-! SUPPORT. No fault under the invariant (70_reset_and_hazards.md R195): every micro-step of a command in progress answers a
next state, so a step answers one or is refused. -/

namespace Sys2Proof.Machine

/-! ## The micro-steps answer -/

/-- A command that is no transfer makes no access to DATA (R159). -/
theorem program_isPlain {cmd : Instr} (hc : isTransfer cmd = false) : ∀ op ∈ program cmd, op.isPlain = true := by
  match cmd, hc with
  | .beginBus, _ => decide
  | .endBus, _ => decide
  | .setClockDivider d, _ => simp [program, setClockDividerProgram, MicroOp.isPlain]
  | .setDataMode m, _ => simp [program, setDataModeProgram, MicroOp.isPlain]

/-- A micro-step of a command that is no transfer has no access to DATA to fault in (R175). -/
theorem micro_answers_of_not_transfer {s : State} {cmd : Instr} {mpc : Nat} {loc : Locals}
    (hx : s.exec = .busy cmd mpc loc) (hc : isTransfer cmd = false) : ∃ t, micro s = .next t := by
  cases hop : (program cmd)[mpc]? with
  | none => exact ⟨respond .ok loc.acc s, by simp only [micro, hx, hop]⟩
  | some op =>
    have hplain : op.isPlain = true := program_isPlain hc op (List.mem_of_getElem? hop)
    have hs : s.moveTo cmd mpc loc = s := by rw [State.moveTo, ← hx]
    have hrun := runOp_of_plain (cmd := cmd) (mpc := mpc) (loc := loc) (s := s) hplain
    rw [hs] at hrun
    exact ⟨_, by simpa only [micro, hx, hop] using hrun⟩

/-- A micro-step of a transfer has what its position needs: it writes DATA with no transfer in progress, and reads DATA
once an exchange is over (R53, R55, R195). -/
theorem tick_answers_of_transfer {s : State} {cmd : Instr} {mpc : Nat} {loc : Locals} (hx : s.exec = .busy cmd mpc loc)
    (hc : isTransfer cmd = true) (hs : s.exchanging cmd loc mpc) : ∃ t, tick s = .next t := by
  match mpc, hx, hs with
  | 0, hx, hidle => exact ⟨_, tick_send hc hx hidle⟩
  | 1, hx, _ =>
    have hpoll := micro_poll hc (s := engineTurn s) (loc := loc) (by simpa using hx)
    exact ⟨_, hpoll⟩
  | 2, hx, ⟨hidle, _, hrx⟩ =>
    obtain ⟨r, hr⟩ := Option.ne_none_iff_exists'.1 hrx
    exact ⟨_, tick_receive hc hx hidle hr⟩
  | n + 3, hx, ⟨hidle, _⟩ => exact ⟨_, tick_of_return hx hidle (by rw [program_transfer hc]; rfl)⟩

/-- Every micro-step of a command in progress answers a next state (R195). -/
theorem tick_answers {s : State} (hb : s.exec ≠ .idle) (hs : s.Inv) : ∃ t, tick s = .next t := by
  obtain ⟨-, -, htransfer⟩ := hs
  cases hx : s.exec with
  | idle => exact absurd hx hb
  | busy cmd mpc loc =>
    cases hc : isTransfer cmd with
    | false => exact micro_answers_of_not_transfer (s := engineTurn s) (by simpa using hx) hc
    | true =>
      obtain ⟨-, hat⟩ := (transferInv_iff_of_transfer hx hc).1 htransfer
      exact tick_answers_of_transfer hx hc hat

/-- Every run of micro-steps answers a next state (R195). -/
theorem settle_answers_of_inv (n : Nat) {s : State} (hs : s.Inv) : ∃ t, settle n s = .next t := by
  obtain ⟨t, ht, -⟩ := settle_answers (P := State.Inv) (fun u hb hu => by
    obtain ⟨v, hv⟩ := tick_answers hb hu
    exact ⟨v, hv, tick_inv hb hu hv⟩) n s hs
  exact ⟨t, ht⟩

/-! ## A step does not fault -/

/-- Every command executed between commands answers a next state (R195). -/
theorem exec_answers {s : State} (i : Instr) (hx : s.exec = .idle) (hs : s.Inv) : ∃ t, exec i s = .next t := by
  rw [exec_of_idle i hx]
  cases hgate : gateFailure i s.running with
  | some st => exact ⟨_, rfl⟩
  | none => exact settle_answers_of_inv _ (issued_inv hx hs hgate)

/-- A word presented between commands is executed or refused (R174, R195). -/
theorem present_ne_fault {s : State} (w : CommandWord) (hx : s.exec = .idle) (hs : s.Inv) (f : Fault) :
    present w s ≠ .fault f := by
  cases hd : decode w with
  | command i =>
    obtain ⟨t, ht⟩ := exec_answers i hx hs
    rw [present_of_idle hx hd, ht]
    nofun
  | illegalCommand e =>
    rw [present_of_illegal hx hd]
    nofun

/-- Between commands no move of the host faults. -/
theorem step_ne_fault_of_idle {s : State} (hs : s.Inv) (hm : s.mark = none) (hx : s.exec = .idle) (f : Fault) :
    step s ≠ .fault f := by
  have hidle : s.isIdle = true := State.isIdle_of_idle hx
  have hpresent : ∀ w rest, present w { s with host := rest } ≠ .fault f := fun w rest =>
    present_ne_fault (s := { s with host := rest }) w hx hs f
  rw [step_of_unmarked hm, hostTurn]
  split
  · rw [proceed, if_pos hidle]; nofun
  · rw [if_pos hidle]; exact hpresent _ _
  · exact hpresent _ _
  · rw [if_pos hidle]; nofun

/-- A step that goes on with a command does not fault, and a word issued meanwhile is refused (R176). -/
theorem step_ne_fault_of_busy {s : State} (hs : s.Inv) (hm : s.mark = none) (hb : s.exec ≠ .idle) (f : Fault) :
    step s ≠ .fault f := by
  by_cases hw : s.hostWaits
  · obtain ⟨t, ht⟩ := tick_answers hb hs
    obtain ⟨u, hu⟩ := settle_answers_of_inv t.pace (tick_inv hb hs ht)
    have hstep : step s = .next u := by rw [step_of_busy hb hm hw, ht]; exact hu
    rw [hstep]
    nofun
  · obtain ⟨w, rest, hh⟩ := issueAtOnce_of_not_hostWaits hw
    rw [step_of_issueAtOnce_busy hb hm hh]
    nofun

/-- Settles O4: between commands by the host's moves, inside a command by its micro-steps, each of which answers. -/
theorem commandsNeverFault : Obligations.CommandsNeverFault := by
  intro s hs hm f
  by_cases hx : s.exec = .idle
  · exact step_ne_fault_of_idle hs hm hx f
  · exact step_ne_fault_of_busy hs hm hx f

end Sys2Proof.Machine
end

section
/-! SUPPORT. The two setters as one kind of command: a read of CTRL and a write of it with one field replaced, gated on
Running (42_config.md R150 to R156). -/

namespace Sys2Proof.Machine

/-! ## What makes a command a setter -/

/-- `i` is a setter that writes CTRL back as `f` makes it, which replaces at most the bits of `mask` (R150, R152, R155). -/
structure Setter (i : Instr) (f : Byte → Byte) (mask : Byte) : Prop where
  program_eq : program i = [.readCtrl, .writeCtrl fun _ c => f c]
  gate_running : gateFailure i true = none
  gate_stopped : gateFailure i false = some .notStarted
  not_transfer : isTransfer i = false
  outside : ∀ c, f c &&& ~~~mask = c &&& ~~~mask

/-- A byte with the bits of `mask` replaced is as before outside them. -/
theorem replaced_outside {c x mask : Byte} (hx : x &&& ~~~mask = 0#8) :
    (c &&& ~~~mask ||| x) &&& ~~~mask = c &&& ~~~mask := by
  rw [BitVec.and_or_distrib_right, BitVec.and_assoc, BitVec.and_self, hx, BitVec.or_zero]

theorem ctrlWithClock_outside (c d : Byte) : ctrlWithClock c d &&& ~~~CLK_MASK = c &&& ~~~CLK_MASK :=
  replaced_outside (by rw [BitVec.and_assoc]; exact BitVec.and_zero)

theorem ctrlWithMode_outside (c m : Byte) : ctrlWithMode c m &&& ~~~MODE_MASK = c &&& ~~~MODE_MASK :=
  replaced_outside (by rw [BitVec.shiftLeft_and_distrib, BitVec.and_assoc]; exact BitVec.and_zero)

theorem setter_setClockDivider (d : Byte) : Setter (.setClockDivider d) (ctrlWithClock · d) CLK_MASK :=
  ⟨rfl, rfl, rfl, rfl, fun c => ctrlWithClock_outside c d⟩

theorem setter_setDataMode (m : Byte) : Setter (.setDataMode m) (ctrlWithMode · m) MODE_MASK :=
  ⟨rfl, rfl, rfl, rfl, fun c => ctrlWithMode_outside c m⟩

/-! ## The effect of a setter -/

section Effect
variable {i : Instr} {f : Byte → Byte} {mask : Byte} (hi : Setter i f mask) {s : State}
include hi

/-- A setter while Running reads CTRL, writes it with its field replaced, and responds Ok (R150, R155). -/
theorem exec_of_setter (hready : s.ready) (hroom : s.roomy) (hrun : s.running = true) :
    exec i s = .next { s with
      ctrl := f s.ctrl
      history := s.history
        ++ [.cmd (encode i), .regRead .ctrl s.ctrl, .regWrite .ctrl (f s.ctrl), .resp .ok 0] } := by
  have hplain : ∀ op ∈ program i, op.isPlain = true := by simp [hi.program_eq, MicroOp.isPlain]
  have hlen : (program i).length < 16 := by simp [hi.program_eq]
  rw [exec_of_plain hready hroom (by rw [hrun]; exact hi.gate_running) hplain hlen, hi.program_eq]
  obtain ⟨hx, -⟩ := hready
  simp [MicroOp.effect, respond, State.record, issued, Locals.start, hx]

/-- A setter while Stopped responds NotStarted and does nothing else (R152). -/
theorem exec_of_setter_stopped (hx : s.exec = .idle) (hrun : s.running = false) :
    exec i s = .next { s with history := s.history ++ [.cmd (encode i), .resp .notStarted 0] } :=
  exec_of_gateFailure hx (by rw [hrun]; exact hi.gate_stopped)

end Effect

/-- The word of a command whose operand is a byte, in the row of `x` (R82, R83, R88). -/
theorem encode_of_byte_operand {i : Instr} {x : CommandWord} {b : Byte} (hrow : i.rowMatch = x)
    (h : i.operand = b.setWidth 32) : encode i = x ||| b.setWidth 40 := by
  rw [← hrow, encode, h, BitVec.setWidth_setWidth (by decide), Instr.rowMatch]

/-- Settles O30: `setClockDivider` is the setter of CLK_RATE. -/
theorem setClockDividerCommand : Obligations.SetClockDividerCommand := by
  intro d s
  have hword : encode (.setClockDivider d) = 0x0600000000 ||| d.setWidth 40 :=
    encode_of_byte_operand (by simp [Instr.rowMatch, Instr.opcode]) rfl
  rw [← hword]
  exact ⟨exec_of_setter (setter_setClockDivider d), exec_of_setter_stopped (setter_setClockDivider d)⟩

/-- Settles O31: `setDataMode` is the setter of MODE. -/
theorem setDataModeCommand : Obligations.SetDataModeCommand := by
  intro m s
  have hword : encode (.setDataMode m) = 0x0700000000 ||| m.setWidth 40 :=
    encode_of_byte_operand (by simp [Instr.rowMatch, Instr.opcode]) rfl
  rw [← hword]
  exact ⟨exec_of_setter (setter_setDataMode m), exec_of_setter_stopped (setter_setDataMode m)⟩

/-! ## The fields of CTRL after a setter -/

/-- Two bytes have the same field of `n` bits at `a` and `b` if they have the same bits there. -/
theorem extractLsb'_eq_of_getLsbD {x y : Byte} {a b n : Nat}
    (h : ∀ j, j < n → x.getLsbD (a + j) = y.getLsbD (b + j)) : x.extractLsb' a n = y.extractLsb' b n := by
  refine BitVec.eq_of_getLsbD_eq fun j hj => ?_
  rw [BitVec.getLsbD_extractLsb', BitVec.getLsbD_extractLsb', h j hj]

/-- Settles O32: of CTRL as a setter writes it, the bits of the field are the argument's and the others are as before. -/
theorem setterReplacesOnlyItsField : Obligations.SetterReplacesOnlyItsField := by
  refine fun v s hready hroom hrun =>
    ⟨⟨_, exec_of_setter (setter_setClockDivider v) hready hroom hrun, ?clkRate, ?aboveClock⟩,
      ⟨_, exec_of_setter (setter_setDataMode v) hready hroom hrun, ?mode, ?cpha, ?cpol, ?belowMode, ?aboveMode⟩⟩
  case clkRate =>
    exact extractLsb'_eq_of_getLsbD fun j hj => by
      rw [getLsbD_ctrlWithClock, if_pos (by omega)]
  case aboveClock =>
    exact extractLsb'_eq_of_getLsbD fun j hj => by
      rw [getLsbD_ctrlWithClock, if_neg (by omega)]
  case mode =>
    exact extractLsb'_eq_of_getLsbD fun j hj => by
      rw [getLsbD_ctrlWithMode, if_pos (by omega), Nat.add_sub_cancel_left, Nat.zero_add]
  case cpha => exact getLsbD_ctrlWithMode s.ctrl v 2
  case cpol => exact getLsbD_ctrlWithMode s.ctrl v 3
  case belowMode =>
    exact extractLsb'_eq_of_getLsbD fun j hj => by
      rw [getLsbD_ctrlWithMode, if_neg (by omega)]
  case aboveMode =>
    exact extractLsb'_eq_of_getLsbD fun j hj => by
      rw [getLsbD_ctrlWithMode, if_neg (by omega)]

/-! ## The frame of a setter -/

/-- What a setter of the field `mask` leaves of a state: all but the history, `exec` and the field. -/
def State.outsideField (mask : Byte) (s : State) : State :=
  { s with ctrl := s.ctrl &&& ~~~mask, exec := .idle, history := [] }

section Frame
variable {i : Instr} {f : Byte → Byte} {mask : Byte} (hi : Setter i f mask) {s t : State}
include hi

/-- An operation of a setter reads CTRL, or writes back what was read but for the field. -/
theorem runOp_outsideField {mpc : Nat} {loc : Locals} {op : MicroOp} (hop : (program i)[mpc]? = some op)
    (hread : op.readFresh loc s) (h : runOp i mpc loc op s = .next t) : t.outsideField mask = s.outsideField mask := by
  have hmem : op = .readCtrl ∨ op = .writeCtrl fun _ c => f c := by
    rw [hi.program_eq] at hop
    simpa using List.mem_of_getElem? hop
  obtain rfl | rfl := hmem
  · cases h; rfl
  · have hc : loc.c = s.ctrl := hread
    cases h
    simp [State.outsideField, hc, hi.outside]

/-- No transfer is in progress while a setter goes on (R159). -/
theorem shift_of_continues_setter (hs : s.Inv) (h : continues i s t) : s.shift = .idle := by
  obtain ⟨-, -, htransfer⟩ := hs
  obtain ⟨⟨mpc, loc, hx⟩, -⟩ := h
  simpa [State.transferInv, hx, hi.not_transfer] using htransfer

/-- A setter, executed or going on, with no transfer in progress. -/
theorem outsideField_of_setter (h : (s.shift = .idle ∧ exec i s = .next t) ∨ (s.Inv ∧ continues i s t)) :
    t.outsideField mask = s.outsideField mask := by
  have hshift : s.shift = .idle := by
    obtain ⟨hs, -⟩ | ⟨hs, hx⟩ := h
    · exact hs
    · exact shift_of_continues_setter hi hs hx
  refine command_keeps_view (view := State.outsideField mask) ?engine ?op (fun _ _ _ hu => hu) rfl (h.imp_left And.right)
  case engine =>
    intro u hu
    have hidle : u.shift = .idle := (congrArg State.shift hu :).trans hshift
    rwa [engineTurn_of_idle hidle]
  case op =>
    intro u v mpc loc op hop hread hu hv
    exact (runOp_outsideField hi hop hread hv).trans hu

end Frame

/-- Settles O33: each field of the frame is read off the part of the state that a setter leaves. -/
theorem configurationFrame : Obligations.ConfigurationFrame := by
  intro i v s t hi h
  have hview : t.outsideField (if i = .setClockDivider v then 0x03#8 else 0x0C#8)
      = s.outsideField (if i = .setClockDivider v then 0x03#8 else 0x0C#8) := by
    obtain rfl | rfl := hi
    · rw [if_pos rfl]; exact outsideField_of_setter (setter_setClockDivider v) h
    · rw [if_neg nofun]; exact outsideField_of_setter (setter_setDataMode v) h
  simp only [State.outsideField, State.mk.injEq, true_and] at hview
  obtain ⟨hrunning, hctrl, hstatus, hkept⟩ := hview
  exact ⟨hctrl, hstatus, hrunning, hkept⟩

end Sys2Proof.Machine
end

section
/-! SUPPORT. Of CTRL a transfer reads ENABLE and MASTER alone, to start an exchange live or not (R55), so CLK_RATE and MODE
make no difference to it (42_config.md R158). -/

namespace Sys2Proof.Machine

/-! ## CTRL and the micro-steps of a transfer -/

/-- The state with CTRL at `v`. -/
def State.withCtrl (v : Byte) (s : State) : State := { s with ctrl := v }

/-- A transfer started now is live or not as it would be with CTRL at `v` (R55). -/
def State.liveAlike (v : Byte) (s : State) : Prop := (s.withCtrl v).liveNow = s.liveNow

/-- ENABLE and MASTER stand in Control [7:4], so only these bits make a transfer live (R7). -/
theorem liveAlike_of_high_bits {v : Byte} {s : State} (hp : s.params.legal = true)
    (h : v.extractLsb' 4 4 = s.ctrl.extractLsb' 4 4) : s.liveAlike v := by
  have hbits : ∀ j, 4 ≤ j → v.getLsbD j = s.ctrl.getLsbD j := by
    intro j hj
    by_cases hlt : j < 8
    · have hbit := congrArg (BitVec.getLsbD · (j - 4)) h
      simpa [hj, show j - 4 < 4 by omega] using hbit
    · rw [BitVec.getLsbD_of_ge v j (by omega), BitVec.getLsbD_of_ge s.ctrl j (by omega)]
  obtain ⟨-, hen, hms, -⟩ := gateView_eq_iff.1 (gateView_ctrl hp hbits)
  exact congrArg₂ (· && ·) hen hms

/-- Whether a transfer is live does not depend on what the transfers change. -/
theorem liveAlike_of_outsideTransfer {v : Byte} {s t : State} (h : t.outsideTransfer = s.outsideTransfer)
    (hs : s.liveAlike v) : t.liveAlike v :=
  (congrArg (fun u => (u.withCtrl v).liveNow) h :).trans (hs.trans (congrArg State.liveNow h.symm :))

/-- The shift engine does not read CTRL. -/
theorem engineTurn_withCtrl (v : Byte) (s : State) : engineTurn (s.withCtrl v) = (engineTurn s).withCtrl v := by
  cases hs : s.shift with
  | idle => rw [engineTurn_of_idle hs, engineTurn_of_idle (s := s.withCtrl v) hs]
  | busy tx live =>
    rw [engineTurn_of_busy hs, engineTurn_of_busy (s := s.withCtrl v) hs, apply_ite (State.withCtrl v)]
    rfl

/-- A read of DATA does not depend on CTRL (R53). -/
theorem memRead_data_withCtrl (v : Byte) (s : State) :
    memRead .data (s.withCtrl v) = (memRead .data s).map fun x => (x.1, x.2.withCtrl v) := by
  have hvalue : readValue .data (s.withCtrl v) = readValue .data s := rfl
  rw [memRead, memRead, hvalue]
  cases readValue .data s <;> rfl

/-- A write of DATA depends on CTRL only by whether the transfer it starts is live (R55). -/
theorem memWrite_data_withCtrl {v : Byte} {s : State} (hlive : s.liveAlike v) (b : Byte) :
    memWrite .data b (s.withCtrl v) = (memWrite .data b s).map (State.withCtrl v) := by
  cases hs : s.shift with
  | busy tx live => rw [memWrite_data_of_busy b hs, memWrite_data_of_busy (s := s.withCtrl v) b hs]; rfl
  | idle => rw [memWrite_data_of_idle b hs, memWrite_data_of_idle (s := s.withCtrl v) b hs, hlive]; rfl

/-- No operation of `XferByte` depends on more of CTRL than whether a transfer started now is live (R128). -/
theorem runOp_withCtrl {v : Byte} {i : Instr} (hi : isTransfer i = true) {mpc : Nat} {op : MicroOp}
    (hop : (program i)[mpc]? = some op) (loc : Locals) {s : State} (hlive : s.liveAlike v) :
    runOp i mpc loc op (s.withCtrl v) = mapNext (State.withCtrl v) (runOp i mpc loc op s) := by
  obtain rfl | rfl | rfl := op_of_transfer hi hop
  · have hbyte : byteToSend (s.withCtrl v).params i loc.k = byteToSend s.params i loc.k := rfl
    simp only [runOp, hbyte, memWrite_data_withCtrl hlive]
    cases memWrite .data (byteToSend s.params i loc.k) s <;> rfl
  · rfl
  · simp only [runOp, memRead_data_withCtrl]
    cases memRead .data s with
    | error f => rfl
    | ok x =>
      simp only [Except.map, afterRead, mapNext]
      split <;> rfl

/-- A micro-step of the controller does not see a change of the state that neither its operation nor its response sees. -/
theorem micro_unseen {f : State → State} {s : State} (hexec : (f s).exec = s.exec)
    (hop : ∀ cmd mpc loc op, s.exec = .busy cmd mpc loc → (program cmd)[mpc]? = some op →
      runOp cmd mpc loc op (f s) = mapNext f (runOp cmd mpc loc op s))
    (hrespond : ∀ v, respond .ok v (f s) = f (respond .ok v s)) : micro (f s) = mapNext f (micro s) := by
  cases hx : s.exec with
  | idle => simp only [micro, hexec, hx, mapNext]
  | busy cmd mpc loc =>
    simp only [micro, hexec, hx]
    cases ho : (program cmd)[mpc]? with
    | none => simp only [hrespond, mapNext]
    | some op => exact hop cmd mpc loc op hx ho

/-- No micro-step of a transfer depends on more of CTRL than whether a transfer started now is live. -/
theorem tick_withCtrl {v : Byte} {i : Instr} (hi : isTransfer i = true) {s : State} (hs : s.executesOnly i)
    (hlive : s.liveAlike v) : tick (s.withCtrl v) = mapNext (State.withCtrl v) (tick s) := by
  have hlive' : (engineTurn s).liveAlike v := liveAlike_of_outsideTransfer (engineTurn_outsideTransfer s) hlive
  rw [tick, engineTurn_withCtrl]
  refine micro_unseen rfl (fun cmd mpc loc op hx hop => ?_) fun _ => rfl
  obtain rfl := engineTurn_executesOnly hs cmd mpc loc hx
  exact runOp_withCtrl hi hop loc hlive'

/-- A micro-step of a transfer leaves of the state what the transfers leave (R121). -/
theorem tick_outsideTransfer {i : Instr} (hi : isTransfer i = true) {s t : State} (hs : s.executesOnly i)
    (h : tick s = .next t) : t.outsideTransfer = s.outsideTransfer := by
  have hview := tick_keeps_view (view := State.outsideTransfer) (s := s)
    (fun u hu => (engineTurn_outsideTransfer u).trans hu)
    (fun _ _ _ _ _ hop _ hu hv => (runOp_outsideTransfer hi hop hv).trans hu) (fun _ _ _ hu => hu)
    s t ⟨rfl, readBack_of_transfer hi hs, hs⟩ h
  exact hview.1

/-! ## CLK_RATE and MODE make no difference to a transfer -/

/-- A change of CTRL that leaves it open to a transfer to be live or not is seen by nothing while only a transfer is in
progress. -/
theorem unseen_withCtrl (v : Byte) {i : Instr} (hi : isTransfer i = true) :
    Unseen (fun u => u.executesOnly i ∧ u.liveAlike v) (State.withCtrl v) where
  keeps _ _ := fun ⟨honly, hlive⟩ h =>
    ⟨micro_executesOnly (engineTurn_executesOnly honly) h,
      liveAlike_of_outsideTransfer (tick_outsideTransfer hi honly h) hlive⟩
  tick _ := fun ⟨honly, hlive⟩ => tick_withCtrl hi honly hlive
  atRest _ := rfl
  exec _ := rfl
  mark _ := rfl
  host _ := rfl
  pace _ := rfl

/-- Settles O44: with legal parameters Control [3:0] does not decide whether a transfer is live, and a transfer sees nothing
else of CTRL. -/
theorem transfersDoNotReadClockOrMode : Obligations.TransfersDoNotReadClockOrMode := by
  intro i v s hi hp hbits
  have hlive : s.liveAlike v := liveAlike_of_high_bits hp hbits
  have hf := unseen_withCtrl v hi
  refine ⟨exec_transfer_unseen hf hi ⟨executesOnly_of_busy rfl, hlive⟩ rfl, fun mpc loc hx => ?_⟩
  exact step_unseen hf ⟨executesOnly_of_busy hx, hlive⟩ (by simp [hx])

end Sys2Proof.Machine
end

section
/-! SUPPORT. How a run stops and stays stopped: the refusal of a word issued while a command executes (60_exceptions.md
R173, R176) and the mark that no step clears (R174, R175). -/

namespace Sys2Proof.Machine

/-- Settles O17: a command in progress has the block refuse the word as it stands, and a refused step sets only the mark. -/
theorem busyControllerRefusesCommands : Obligations.BusyControllerRefusesCommands := by
  intro s hb
  refine ⟨fun i => exec_of_busy i hb, fun x rest hm hh => ?_⟩
  have hstep : step s = .refused .commandWhileBusy := step_of_issueAtOnce_busy hb hm hh
  exact ⟨hstep, advance_of_refused hstep⟩

/-! ## A stopped run -/

/-- A run stopped by a refusal answers that refusal, whatever the host and the controller are about to do (R174). -/
theorem step_of_mark_refused {s : State} {r : Refusal} (hm : s.mark = some (.refused r)) : step s = .refused r := by
  rw [step, turn, hm]

/-- A run stopped by a fault answers that fault, whatever the host and the controller are about to do (R175). -/
theorem step_of_mark_faulted {s : State} {f : Fault} (hm : s.mark = some (.faulted f)) : step s = .fault f := by
  rw [step, turn, hm]

/-- A faulting step leaves the state with nothing but the fault recorded (R175). -/
theorem advance_of_fault {s : State} {f : Fault} (h : step s = .fault f) :
    advance s = { s with mark := some (.faulted f) } := by
  rw [advance, h, leaves]

/-- Settles O18: a stopped run answers its mark again, and the mark it is then given is the one it has. -/
theorem markIsNeverCleared : Obligations.MarkIsNeverCleared := by
  refine fun s => ⟨fun r hm => ?_, fun f hm => ?_⟩
  · have hstep : step s = .refused r := step_of_mark_refused hm
    exact ⟨hstep, by rw [advance_of_refused hstep, ← hm]⟩
  · have hstep : step s = .fault f := step_of_mark_faulted hm
    exact ⟨hstep, by rw [advance_of_fault hstep, ← hm]⟩

end Sys2Proof.Machine
end

section
/-! SUPPORT. The two steps of a block between commands that take no word: a reset by the host (70_reset_and_hazards.md
R190, 10_state.md R42) and a step that waits for the host (R186, R191). -/

namespace Sys2Proof.Machine

/-- A reset by the host, made while `exec` is Idle, is the whole step (R190). -/
theorem step_of_reset {s : State} {rest : List HostMove} (hm : s.mark = none) (hh : s.host = .reset :: rest)
    (hx : s.exec = .idle) : step s = .next (restart { s with host := rest }) := by
  rw [step_of_unmarked hm, hostTurn, hh]
  exact if_pos (State.isIdle_of_idle hx)

/-- With legal parameters the reset values have ENABLE, MASTER, COMPLETE and HISPEED 0 (R8, R42). -/
theorem restart_flags {s : State} (hp : s.params.legal = true) :
    (restart s).enable = false ∧ (restart s).master = false ∧ (restart s).complete = false
      ∧ (restart s).hispeed = false := by
  obtain ⟨-, -, -, -, -, hen, hms, hcf, hhs⟩ := (Config.Params.legal_iff _).1 hp
  exact ⟨(State.enable_eq _).trans hen, (State.master_eq _).trans hms, (State.complete_eq _).trans hcf,
    (State.hispeed_eq _).trans hhs⟩

/-- Settles O1: the step is `restart`, whose fields stand at their reset values, and legality makes the flags there 0. -/
theorem resetMoveGivesResetState : Obligations.ResetMoveGivesResetState := by
  intro s rest hm hh hx
  exact ⟨restart { s with host := rest }, step_of_reset hm hh hx, restart_running _, restart_ctrl _, restart_status _,
    restart_rx _, restart_shift _, restart_exec _, restart_history _, restart_mark _, restart_flags⟩

/-- With the host having nothing left and `exec` Idle, a step is one turn of the shift engine (R57, R191). -/
theorem step_of_host_done {s : State} (hm : s.mark = none) (hx : s.exec = .idle) (hh : s.host = []) :
    step s = .next (engineTurn s) := by
  rw [step_of_unmarked hm, hostTurn, hh]
  exact if_pos (State.isIdle_of_idle hx)

/-- Settles O19: only the shift engine could act, and with no transfer in progress its turn does nothing. -/
theorem idleBlockWaits : Obligations.IdleBlockWaits := by
  intro s hm ⟨hexec, hshift⟩ hh
  rw [step_of_host_done hm hexec hh, engineTurn_of_idle hshift]

end Sys2Proof.Machine
end
